-- ==== Sys2Proof/Word.lean ====
section
/-! DEFINITION. The bit vectors of the decoder: bytes of the buffer and 16-bit fields
(00_scope.md R8). -/

namespace Sys2Proof

/-- A byte of the input buffer (R8, R21). -/
abbrev Byte := BitVec 8

/-- A 16-bit field: displacement, direct address or immediate (R8, R42). -/
abbrev Word := BitVec 16

/-- A 3-bit register code (R27); the rm field of the effective-address table has the same width (R64). -/
abbrev RegCode := BitVec 3

end Sys2Proof
end

