-- ==== Sys2Proof/Config.lean ====
section
/-! DEFINITION. The parameters of the spec (00_scope.md R7) that are not natural numbers, and the
defaults R7 gives. `N`, `START` and `C6_REG_POLICY` are fixed by the host before a stream (R190), so
they stand in State; `CURSOR_BITS` belongs to a realisation, the model's cursor being unbounded
(R7; log entry 6). No value of an instruction is left open, so there is no free value here. -/

namespace Sys2Proof

/-- `C6_REG_POLICY` (R7, R76): how leading bytes 0xC6 and 0xC7 treat a reg field other than 000. -/
inductive C6RegPolicy where
  | reject
  | ignore
  deriving DecidableEq, Repr

namespace Config

/-- R7: the default of `C6_REG_POLICY` is `Reject`. -/
def defaultPolicy : C6RegPolicy := .reject

/-- R7, R37: the default of `START` is 0. -/
def defaultStart : Nat := 0

/-- R8, R78: the longest instruction is 6 bytes. -/
def maxLength : Nat := 6

/-- What an offset reads as that the sparse buffer does not list (log entry 2, DESIGN CHOICE). -/
def fillByte : Byte := 0

end Config

end Sys2Proof
end

