-- ==== Sys2Proof/Syntax.lean ====
section
/-! DEFINITION. The decoder's data types (10_state.md R26 to R30) and `Instr`, the instructions as
syntax: one constructor per row of spec/opcode_table.json. -/

namespace Sys2Proof

/-- The W bit (R11, R27): `byte` is W = 0, `word` is W = 1. -/
inductive Width where
  | byte
  | word
  deriving DecidableEq, Repr

/-- The D bit (R11, R100): `regIsSource` is D = 0, `regIsDest` is D = 1. -/
inductive Direction where
  | regIsSource
  | regIsDest
  deriving DecidableEq, Repr

/-- R26, by the spec's short names: `rm` RegisterOrMemoryToFromRegister, `irm`
ImmediateToRegisterOrMemory, `ir` ImmediateToRegister, `ma` MemoryToAccumulator, `am`
AccumulatorToMemory. `unrecognized` is only a verdict of the classifier. -/
inductive Shape where
  | rm
  | irm
  | ir
  | ma
  | am
  | unrecognized
  deriving DecidableEq, Repr

/-- The classifier's verdict with the fields it extracts from the leading byte (R62). -/
inductive Classified where
  | rm (d : Direction) (w : Width)
  | irm (w : Width)
  | ir (w : Width) (code : RegCode)
  | ma (w : Width)
  | am (w : Width)
  | unrecognized
  deriving DecidableEq, Repr

/-- The 16 register names (R67). -/
inductive RegName where
  | al | cl | dl | bl | ah | ch | dh | bh
  | ax | cx | dx | bx | sp | bp | si | di
  deriving DecidableEq, Repr

/-- The 8 effective-address expressions (R69). -/
inductive EAExpr where
  | bxSi | bxDi | bpSi | bpDi | si | di | bp | bx
  deriving DecidableEq, Repr

/-- The displacement of a based operand, kept with its width and raw bits (R28). -/
inductive Disp where
  | noDisp
  | disp8 (raw : Byte)
  | disp16 (raw : Word)
  deriving DecidableEq, Repr

/-- The effective address of a memory operand (R28): an expression, never a number (R54). -/
inductive EA where
  | based (rm : RegCode) (disp : Disp)
  | direct (addr : Word)
  deriving DecidableEq, Repr

/-- What mod and rm select (R65, R70): a register under mod = 11, else a memory operand. -/
inductive RmField where
  | reg (code : RegCode)
  | mem (ea : EA)
  deriving DecidableEq, Repr

/-- An immediate `Imm(w, raw)`: the raw field is 8 bits when w = 0 and 16 bits when w = 1 (R29). -/
inductive Imm where
  | imm8 (raw : Byte)
  | imm16 (raw : Word)
  deriving DecidableEq, Repr

/-- R27 to R29: `Reg(code, w)`, `Mem(ea, w)` or `Imm(w, raw)`. -/
inductive Operand where
  | reg (code : RegCode) (w : Width)
  | mem (ea : EA) (w : Width)
  | imm (i : Imm)
  deriving DecidableEq, Repr

/-- The three fields of a mod/reg/rm byte (R64). -/
structure ModRM where
  mod : BitVec 2
  reg : RegCode
  rm : RegCode
  deriving DecidableEq, Repr

/-- R30, R85: the one mnemonic. -/
inductive Mnemonic where
  | mov
  deriving DecidableEq, Repr

/-- The instructions, one constructor per row of the opcode table. `reg` of the two forms with an
immediate and an r/m operand is the opcode-extension field of R76, not an operand. -/
inductive Instr where
  /-- 0x88, MOV r/m8, r8 (R101). -/
  | movRm8R8 (reg : RegCode) (rm : RmField)
  /-- 0x89, MOV r/m16, r16 (R102). -/
  | movRm16R16 (reg : RegCode) (rm : RmField)
  /-- 0x8A, MOV r8, r/m8 (R103). -/
  | movR8Rm8 (reg : RegCode) (rm : RmField)
  /-- 0x8B, MOV r16, r/m16 (R104). -/
  | movR16Rm16 (reg : RegCode) (rm : RmField)
  /-- 0xC6, MOV r/m8, imm8 (R121). -/
  | movRm8Imm8 (reg : RegCode) (rm : RmField) (imm : Byte)
  /-- 0xC7, MOV r/m16, imm16 (R122). -/
  | movRm16Imm16 (reg : RegCode) (rm : RmField) (imm : Word)
  /-- 0xB0 to 0xB7, MOV r8, imm8 (R124). -/
  | movR8Imm8 (code : RegCode) (imm : Byte)
  /-- 0xB8 to 0xBF, MOV r16, imm16 (R125). -/
  | movR16Imm16 (code : RegCode) (imm : Word)
  /-- 0xA0, MOV al, [addr16] (R141). -/
  | movAlMoffs8 (addr : Word)
  /-- 0xA1, MOV ax, [addr16] (R142). -/
  | movAxMoffs16 (addr : Word)
  /-- 0xA2, MOV [addr16], al (R143). -/
  | movMoffs8Al (addr : Word)
  /-- 0xA3, MOV [addr16], ax (R144). -/
  | movMoffs16Ax (addr : Word)
  deriving DecidableEq, Repr

end Sys2Proof
end

