-- ==== Sys2Proof/WellFormed.lean ====
section
/-! DEFINITION. Which instruction terms some bytes encode, under a policy. -/

namespace Sys2Proof

/-- R28, R66: `Based(110, NoDisp)` is never produced, that encoding being the direct address. -/
def EA.wellFormed : EA → Bool
  | .based rm .noDisp => rm != 0b110
  | .based _ _ => true
  | .direct _ => true

def RmField.wellFormed : RmField → Bool
  | .reg _ => true
  | .mem ea => ea.wellFormed

/-- R76, R81: every field value decodes, but for `Based(110, NoDisp)` and, under `Reject`, a reg
field other than 000 in the forms 0xC6 and 0xC7. -/
def Instr.wellFormed (policy : C6RegPolicy) : Instr → Bool
  | .movRm8R8 _ rm => rm.wellFormed
  | .movRm16R16 _ rm => rm.wellFormed
  | .movR8Rm8 _ rm => rm.wellFormed
  | .movR16Rm16 _ rm => rm.wellFormed
  | .movRm8Imm8 reg rm _ => rm.wellFormed && (reg == 0 || policy == .ignore)
  | .movRm16Imm16 reg rm _ => rm.wellFormed && (reg == 0 || policy == .ignore)
  | .movR8Imm8 _ _ => true
  | .movR16Imm16 _ _ => true
  | .movAlMoffs8 _ => true
  | .movAxMoffs16 _ => true
  | .movMoffs8Al _ => true
  | .movMoffs16Ax _ => true

end Sys2Proof
end

