-- ==== Sys2Proof/Decode.lean ====
section
/-! DEFINITION. The classifier and the operand decoder as a function from a list of bytes (what is
left of the buffer from the cursor on) to an instruction and the bytes after it, or an error by name
(30_encoding.md R60 to R80), and after it the encoder, written from the same formats. -/

namespace Sys2Proof

/-! ## Bit fields -/

/-- The W bit as one bit (R27). -/
def Width.bit : Width → BitVec 1
  | .byte => 0
  | .word => 1

/-- The width a W bit selects (R27). -/
def Width.ofBit (b : Bool) : Width := if b then .word else .byte

/-- The D bit as one bit (R100). -/
def Direction.bit : Direction → BitVec 1
  | .regIsSource => 0
  | .regIsDest => 1

/-- R100: D = 1 means reg is the destination. -/
def Direction.ofBit (b : Bool) : Direction := if b then .regIsDest else .regIsSource

/-- R42: the 16-bit field whose low byte is `lo`. -/
def le16 (lo hi : Byte) : Word := hi ++ lo

/-- R42: bits 7:0 of a 16-bit field, the byte at the lower offset. -/
def lowByte (v : Word) : Byte := v.extractLsb' 0 8

/-- R42: bits 15:8 of a 16-bit field, the byte at the higher offset. -/
def highByte (v : Word) : Byte := v.extractLsb' 8 8

/-- R64: mod = m[7:6], reg = m[5:3], rm = m[2:0]. -/
def ModRM.ofByte (m : Byte) : ModRM :=
  { mod := m.extractLsb' 6 2, reg := m.extractLsb' 3 3, rm := m.extractLsb' 0 3 }

/-- R83: the byte `mod, reg, rm`, mod in the high bits. -/
def ModRM.toByte (x : ModRM) : Byte := x.mod ++ x.reg ++ x.rm

/-! ## Classifier -/

/-- R62, test for test. -/
def classify (b0 : Byte) : Classified :=
  if b0 &&& 0xFC = 0x88 then .rm (Direction.ofBit (b0.getLsbD 1)) (Width.ofBit (b0.getLsbD 0))
  else if b0 &&& 0xFE = 0xC6 then .irm (Width.ofBit (b0.getLsbD 0))
  else if b0 &&& 0xF0 = 0xB0 then .ir (Width.ofBit (b0.getLsbD 3)) (b0.extractLsb' 0 3)
  else if b0 &&& 0xFE = 0xA0 then .ma (Width.ofBit (b0.getLsbD 0))
  else if b0 &&& 0xFE = 0xA2 then .am (Width.ofBit (b0.getLsbD 0))
  else .unrecognized

/-- The shape of a verdict (R26). -/
def Classified.shape : Classified → Shape
  | .rm _ _ => .rm
  | .irm _ => .irm
  | .ir _ _ => .ir
  | .ma _ => .ma
  | .am _ => .am
  | .unrecognized => .unrecognized

/-- R76: a reg field of 0xC6/0xC7 that does not end the call. -/
def C6RegPolicy.accepts (policy : C6RegPolicy) (reg : RegCode) : Bool :=
  match policy with
  | .reject => reg == 0
  | .ignore => true

/-! ## Lengths -/

/-- `1 + W`: the bytes of an immediate of width W (R74, R79). -/
def Width.bytes : Width → Nat
  | .byte => 1
  | .word => 2

/-- R79, `DispBytes(m)`. -/
def ModRM.dispLength (x : ModRM) : Nat :=
  if x.mod = 0b00 ∧ x.rm = 0b110 then 2
  else if x.mod = 0b00 ∨ x.mod = 0b11 then 0
  else if x.mod = 0b01 then 1
  else 2

/-- R79, `Length(b0, m)`; 0 for an unrecognized leading byte, which has no length. -/
def Classified.length (k : Classified) (x : ModRM) : Nat :=
  match k with
  | .rm _ _ => 2 + x.dispLength
  | .irm w => 2 + x.dispLength + w.bytes
  | .ir w _ => 1 + w.bytes
  | .ma _ => 3
  | .am _ => 3
  | .unrecognized => 0

/-! ## Operand decoder -/

/-- Why bytes are no instruction. The offsets of the spec's error records (R32) are added where the
cursor is known (`Machine.reportError`). -/
inductive DecodeError where
  /-- No byte is left (R151). -/
  | endOfBuffer
  /-- R171; `second` is the mod/reg/rm byte in case (b). -/
  | unrecognizedOpcode (pattern : Byte) (second : Option Byte)
  /-- R172: the bytes end inside a field of this shape. -/
  | truncated (shape : Shape)
  deriving DecidableEq, Repr

/-- A one-byte field (R45). -/
def takeByte (shape : Shape) : List Byte → Except DecodeError (Byte × List Byte)
  | b :: rest => .ok (b, rest)
  | [] => .error (.truncated shape)

/-- A two-byte field, low byte first (R42, R45). -/
def takeWord (shape : Shape) : List Byte → Except DecodeError (Word × List Byte)
  | lo :: hi :: rest => .ok (le16 lo hi, rest)
  | _ => .error (.truncated shape)

/-- R70, `DecodeRM`: the r/m operand and the bytes after its displacement or direct address. -/
def decodeRmField (shape : Shape) (x : ModRM) (bs : List Byte) :
    Except DecodeError (RmField × List Byte) :=
  if x.mod = 0b11 then .ok (.reg x.rm, bs)
  else if x.mod = 0b00 then
    if x.rm = 0b110 then do
      let (addr, bs) ← takeWord shape bs
      .ok (.mem (.direct addr), bs)
    else .ok (.mem (.based x.rm .noDisp), bs)
  else if x.mod = 0b01 then do
    let (raw, bs) ← takeByte shape bs
    .ok (.mem (.based x.rm (.disp8 raw)), bs)
  else do
    let (raw, bs) ← takeWord shape bs
    .ok (.mem (.based x.rm (.disp16 raw)), bs)

/-- The row of the opcode table with these D and W bits (R101 to R104). -/
def regMemInstr : Direction → Width → RegCode → RmField → Instr
  | .regIsSource, .byte => .movRm8R8
  | .regIsSource, .word => .movRm16R16
  | .regIsDest, .byte => .movR8Rm8
  | .regIsDest, .word => .movR16Rm16

/-- R100: shape `RM` after its leading byte. -/
def decodeRegMem (d : Direction) (w : Width) (bs : List Byte) :
    Except DecodeError (Instr × List Byte) := do
  let (m, bs) ← takeByte .rm bs
  let x := ModRM.ofByte m
  let (o, bs) ← decodeRmField .rm x bs
  .ok (regMemInstr d w x.reg o, bs)

/-- R120: shape `IRM` after its leading byte `b0`; the reg check of R76 stands before the
displacement and the immediate (R174). -/
def decodeImmRm (policy : C6RegPolicy) (b0 : Byte) (w : Width) (bs : List Byte) :
    Except DecodeError (Instr × List Byte) := do
  let (m, bs) ← takeByte .irm bs
  let x := ModRM.ofByte m
  if policy.accepts x.reg then
    let (o, bs) ← decodeRmField .irm x bs
    match w with
    | .byte => do
      let (v, bs) ← takeByte .irm bs
      .ok (.movRm8Imm8 x.reg o v, bs)
    | .word => do
      let (v, bs) ← takeWord .irm bs
      .ok (.movRm16Imm16 x.reg o v, bs)
  else .error (.unrecognizedOpcode b0 (some m))

/-- R123: shape `IR` after its leading byte. -/
def decodeImmReg (w : Width) (code : RegCode) (bs : List Byte) :
    Except DecodeError (Instr × List Byte) :=
  match w with
  | .byte => do
    let (v, bs) ← takeByte .ir bs
    .ok (.movR8Imm8 code v, bs)
  | .word => do
    let (v, bs) ← takeWord .ir bs
    .ok (.movR16Imm16 code v, bs)

/-- R140: shape `MA` after its leading byte. -/
def decodeMemAcc (w : Width) (bs : List Byte) : Except DecodeError (Instr × List Byte) := do
  let (addr, bs) ← takeWord .ma bs
  match w with
  | .byte => .ok (.movAlMoffs8 addr, bs)
  | .word => .ok (.movAxMoffs16 addr, bs)

/-- R140: shape `AM` after its leading byte. -/
def decodeAccMem (w : Width) (bs : List Byte) : Except DecodeError (Instr × List Byte) := do
  let (addr, bs) ← takeWord .am bs
  match w with
  | .byte => .ok (.movMoffs8Al addr, bs)
  | .word => .ok (.movMoffs16Ax addr, bs)

/-- The decoder, total on any bytes: the instruction at their head and the bytes after it, or an
error by name. -/
def decode (policy : C6RegPolicy) : List Byte → Except DecodeError (Instr × List Byte)
  | [] => .error .endOfBuffer
  | b0 :: bs =>
    match classify b0 with
    | .rm d w => decodeRegMem d w bs
    | .irm w => decodeImmRm policy b0 w bs
    | .ir w code => decodeImmReg w code bs
    | .ma w => decodeMemAcc w bs
    | .am w => decodeAccMem w bs
    | .unrecognized => .error (.unrecognizedOpcode b0 none)

/-- The bytes of an instruction whose bits are `w` numbered as the opcode table numbers them, every
bit from `nbits` up being zero, as many bytes as the longest instruction has. -/
def tableBytes (nbits w : Nat) : List Byte :=
  (List.range Config.maxLength).map fun k => BitVec.ofNat 8 ((w % 2 ^ nbits) >>> (8 * k))

/-- What the decoder reads from such an instruction, under the default policy (log entry 10). -/
def decodeTableWord (nbits w : Nat) : Option Instr :=
  match decode Config.defaultPolicy (tableBytes nbits w) with
  | .ok (i, _) => some i
  | .error _ => none

/-! ## Encoder -/

/-- R65: the mod field of an r/m form. -/
def RmField.mod : RmField → BitVec 2
  | .reg _ => 0b11
  | .mem (.based _ .noDisp) => 0b00
  | .mem (.based _ (.disp8 _)) => 0b01
  | .mem (.based _ (.disp16 _)) => 0b10
  | .mem (.direct _) => 0b00

/-- R65, R66: the rm field of an r/m form. -/
def RmField.rm : RmField → RegCode
  | .reg code => code
  | .mem (.based rm _) => rm
  | .mem (.direct _) => 0b110

/-- The mod/reg/rm fields of an r/m form with a reg field (R64). -/
def RmField.modrm (reg : RegCode) (o : RmField) : ModRM := { mod := o.mod, reg := reg, rm := o.rm }

/-- A 16-bit field as it stands in the buffer, low byte first (R42). -/
def wordBytes (v : Word) : List Byte := [lowByte v, highByte v]

/-- The displacement or direct-address bytes of an r/m form (R65, R75). -/
def RmField.dispBytes : RmField → List Byte
  | .reg _ => []
  | .mem (.based _ .noDisp) => []
  | .mem (.based _ (.disp8 raw)) => [raw]
  | .mem (.based _ (.disp16 raw)) => wordBytes raw
  | .mem (.direct addr) => wordBytes addr

/-- How many they are (R65). -/
def RmField.dispLength : RmField → Nat
  | .reg _ => 0
  | .mem (.based _ .noDisp) => 0
  | .mem (.based _ (.disp8 _)) => 1
  | .mem (.based _ (.disp16 _)) => 2
  | .mem (.direct _) => 2

/-- R61: `100010DW`. -/
def regMemLead (d : Direction) (w : Width) : Byte := 0b100010#6 ++ d.bit ++ w.bit

/-- R61: `1100011W`. -/
def immRmLead (w : Width) : Byte := 0b1100011#7 ++ w.bit

/-- R61: `1011WRRR`. -/
def immRegLead (w : Width) (code : RegCode) : Byte := 0b1011#4 ++ w.bit ++ code

/-- R61: `1010000W`. -/
def memAccLead (w : Width) : Byte := 0b1010000#7 ++ w.bit

/-- R61: `1010001W`. -/
def accMemLead (w : Width) : Byte := 0b1010001#7 ++ w.bit

/-- The leading byte and the fields of shape `RM` in the order of R75. -/
def encodeRegMem (d : Direction) (w : Width) (reg : RegCode) (o : RmField) : List Byte :=
  regMemLead d w :: (o.modrm reg).toByte :: o.dispBytes

/-- The leading byte and the fields of shape `IRM` in the order of R75, the immediate last. -/
def encodeImmRm (w : Width) (reg : RegCode) (o : RmField) (imm : List Byte) : List Byte :=
  immRmLead w :: (o.modrm reg).toByte :: (o.dispBytes ++ imm)

/-- The bytes of an instruction (R60, R61, R75). -/
def encode : Instr → List Byte
  | .movRm8R8 reg o => encodeRegMem .regIsSource .byte reg o
  | .movRm16R16 reg o => encodeRegMem .regIsSource .word reg o
  | .movR8Rm8 reg o => encodeRegMem .regIsDest .byte reg o
  | .movR16Rm16 reg o => encodeRegMem .regIsDest .word reg o
  | .movRm8Imm8 reg o v => encodeImmRm .byte reg o [v]
  | .movRm16Imm16 reg o v => encodeImmRm .word reg o (wordBytes v)
  | .movR8Imm8 code v => [immRegLead .byte code, v]
  | .movR16Imm16 code v => immRegLead .word code :: wordBytes v
  | .movAlMoffs8 addr => memAccLead .byte :: wordBytes addr
  | .movAxMoffs16 addr => memAccLead .word :: wordBytes addr
  | .movMoffs8Al addr => accMemLead .byte :: wordBytes addr
  | .movMoffs16Ax addr => accMemLead .word :: wordBytes addr

end Sys2Proof
end

