-- ==== Sys2Proof/Machine/State.lean ====
section
/-! DEFINITION. The machine's state (10_state.md R21 to R25) as plain data, the records it holds
(R30, R32), the reasons a step can stop, and the state after reset (R37). -/

namespace Sys2Proof.Machine

/-- The operand tuple (R30). -/
structure DecodedInstr where
  start : Nat
  length : Nat
  shape : Shape
  mnemonic : Mnemonic
  w : Width
  d : Option Direction
  modrm : Option ModRM
  dest : Operand
  src : Operand
  deriving DecidableEq, Repr

/-- The error records (R32). `unsupportedAddressingMode` is kept and never raised (R173). -/
inductive ErrorRecord where
  | unrecognizedOpcode (offset : Nat) (pattern : Byte) (second : Option Byte)
  | truncatedInstruction (shape : Shape) (offset : Nat)
  | unsupportedAddressingMode (offset : Nat) (shape : Shape)
  deriving DecidableEq, Repr

/-- The result of one call outside a stream (R31). -/
inductive DecodeResult where
  | ok (t : DecodedInstr) (next : Nat)
  | done
  | err (e : ErrorRecord)
  | refused
  deriving DecidableEq, Repr

/-- The run status of a stream (R23). -/
inductive Status where
  | running
  | finished
  | failed (e : ErrorRecord)
  deriving DecidableEq, Repr

/-- The input buffer: the offsets whose byte is not `Config.fillByte`, strictly rising (log entry 2). -/
abbrev Buffer := List Host.Cell

/-- The stream state of R155 (`cursor`, `status`, `log`) and the host's inputs of R190 (`buf`, `N`,
`START`, `C6_REG_POLICY`), which no step changes. -/
structure State where
  /-- The input buffer (R21). -/
  buf : Buffer
  /-- `N`, its length (R7). -/
  size : Nat
  /-- `START` (R7). -/
  start : Nat
  /-- `C6_REG_POLICY` (R7, R76). -/
  policy : C6RegPolicy
  /-- R22; `none` after an error (R155, R175). -/
  cursor : Option Nat
  /-- R23. -/
  status : Status
  /-- R24, in buffer order. -/
  log : List DecodedInstr
  deriving DecidableEq, Repr

/-- Why the machine stops. -/
inductive Fault where
  /-- Raised by `beginCall` when the stream has ended `Finished`: "there is no step" (R155). Safe:
  the hardware does not go on either. -/
  | streamFinished
  /-- Raised by `beginCall` when the stream has ended `Failed(e)`: "there is no step" (R155). Safe:
  the hardware does not go on either. -/
  | streamFailed
  /-- Raised by `beginCall` when a running stream's cursor holds no value: reading it is a fault
  (93_implementation_defined.md I1). Safe: no run reaches it. -/
  | cursorUndefined
  deriving DecidableEq, Repr

/-- What the machine gives no meaning. -/
inductive Refusal where
  /-- Raised by `exec` for an instruction that has no meaning yet; no instruction is in that case.
  Safe. -/
  | notModelled (mnemonic : String)
  /-- Raised by `beginCall` for a call with `c > N`: the spec's `Refused` (R152). Safe: the spec gives
  the call no meaning. -/
  | cursorPastEnd
  deriving DecidableEq, Repr

/-- R37 with the defaults of R7, over the empty buffer (log entry 1, DESIGN CHOICE). -/
def State.reset : State :=
  { buf := []
    size := 0
    start := Config.defaultStart
    policy := Config.defaultPolicy
    cursor := some Config.defaultStart
    status := .running
    log := [] }

end Sys2Proof.Machine
end

