-- ==== Sys2Proof/Machine/Ops.lean ====
section
/-! DEFINITION. The named operations over the buffer and the stream state: reading and supplying the
buffer, starting and restarting a stream, and the ways a call ends: a tuple logged, `Done`, an error
taken, or refused. -/

namespace Sys2Proof.Machine

/-! ## The buffer -/

/-- The byte at an offset of the buffer's space (R40); an offset that is not listed holds
`Config.fillByte`. -/
def Buffer.read : Buffer → Nat → Byte
  | [], _ => Config.fillByte
  | (a, b) :: rest, k => if k = a then b else Buffer.read rest k

/-- The host's side of the buffer (R191): offset `k` holds `v`. No step writes (R40, R48). -/
def Buffer.write : Buffer → Nat → Byte → Buffer
  | [], k, v => if v = Config.fillByte then [] else [(k, v)]
  | (a, b) :: rest, k, v =>
    if k < a then (if v = Config.fillByte then (a, b) :: rest else (k, v) :: (a, b) :: rest)
    else if k = a then (if v = Config.fillByte then rest else (k, v) :: rest)
    else (a, b) :: Buffer.write rest k v

/-- Several bytes at consecutive offsets. -/
def Buffer.writeBytes (m : Buffer) (a : Nat) : List Byte → Buffer
  | [] => m
  | b :: bs => Buffer.writeBytes (m.write a b) (a + 1) bs

/-- The buffer that holds these bytes from offset `a` on. -/
def Buffer.ofBytesAt (a : Nat) : List Byte → Buffer
  | [] => []
  | b :: bs =>
    if b = Config.fillByte then Buffer.ofBytesAt (a + 1) bs
    else (a, b) :: Buffer.ofBytesAt (a + 1) bs

/-- Offsets strictly rising from `lo` on, no entry equal to the fill byte. -/
def Buffer.risingFrom (lo : Nat) : Buffer → Bool
  | [] => true
  | (a, b) :: rest => decide (lo ≤ a) && b != Config.fillByte && Buffer.risingFrom (a + 1) rest

/-- The canonical form: equal buffers are equal data. -/
def Buffer.wf (m : Buffer) : Bool := m.risingFrom 0

/-- No listed offset at or above `n` (R40: the space is `0 .. N-1`). -/
def Buffer.within (m : Buffer) (n : Nat) : Bool := m.all fun cell => decide (cell.1 < n)

/-- The `n` bytes from offset `a` on. -/
def Buffer.bytesAt (m : Buffer) (a : Nat) : Nat → List Byte
  | 0 => []
  | n + 1 => m.read a :: m.bytesAt (a + 1) n

/-- R41, `MemRead(a, 1)`: defined only below `N`. -/
def State.memRead (s : State) (a : Nat) : Option Byte :=
  if a < s.size then some (s.buf.read a) else none

/-- Up to `n` bytes from offset `a` on, in increasing offset order, ending at `N` (R41, R48). -/
def State.fetch (s : State) (a : Nat) : Nat → List Byte
  | 0 => []
  | n + 1 =>
    match s.memRead a with
    | some b => b :: s.fetch (a + 1) n
    | none => []

/-! ## Starting a stream -/

/-- R190, R191: the host's reset with a buffer, a start cursor and a policy. -/
def State.boot (bytes : List Byte) (start : Nat) (policy : C6RegPolicy) : State :=
  { buf := Buffer.ofBytesAt 0 bytes
    size := bytes.length
    start := start
    policy := policy
    cursor := some start
    status := .running
    log := [] }

/-- R176, R190: the host starts a new stream over the same buffer. Not a step (log entry 9). -/
def State.restart (s : State) (start : Nat) : State :=
  { s with start := start, cursor := some start, status := .running, log := [] }

/-- R159: the amount of input consumed, the sum of the logged lengths. -/
def State.consumed (s : State) : Nat := (s.log.map DecodedInstr.length).sum

/-- R159, R193: `START + Σ t.length over log`, where a failing instruction starts. -/
def State.failingOffset (s : State) : Nat := s.start + s.consumed

/-! ## How a call ends -/

/-- R155, `Ok(t, next)`: the tuple is appended and the cursor moves past the instruction (R153). -/
def State.logTuple (s : State) (t : DecodedInstr) : State :=
  { s with log := s.log ++ [t], cursor := some (t.start + t.length) }

/-- R155, `Done`. -/
def State.finish (s : State) : State := { s with status := .finished }

/-- R175, taking an error: the status records it, the cursor holds no value, the log stays. -/
def State.takeError (s : State) (e : ErrorRecord) : State :=
  { s with status := .failed e, cursor := none }

/-- The start of every call: a step is allowed only while the status is `Running` (R155), the cursor
is read, and `c > N` and `c = N` end the call before any byte is read (R150, R174 lines 1 and 2). -/
def beginCall (s : State) (k : Nat → Host.Outcome State Fault Refusal) :
    Host.Outcome State Fault Refusal :=
  match s.status with
  | .finished => .fault .streamFinished
  | .failed _ => .fault .streamFailed
  | .running =>
    match s.cursor with
    | none => .fault .cursorUndefined
    | some c =>
      if s.size < c then .refused .cursorPastEnd
      else if c = s.size then .next s.finish
      else k c

/-- The end of a call whose instruction is `t`: `TruncatedInstruction` with offset `N` unless all of
its bytes lie below `N` (R172), else `Ok` (R155). -/
def completeCall (s : State) (t : DecodedInstr) : Host.Outcome State Fault Refusal :=
  if s.size < t.start + t.length then .next (s.takeError (.truncatedInstruction t.shape s.size))
  else .next (s.logTuple t)

/-- The end of a call at cursor `c` whose bytes are no instruction: the decoder's error with the
offsets of R171 and R172, taken as R175 says. -/
def reportError (s : State) (c : Nat) : DecodeError → Host.Outcome State Fault Refusal
  | .endOfBuffer => .next s.finish
  | .unrecognizedOpcode pattern second =>
    .next (s.takeError (.unrecognizedOpcode c pattern second))
  | .truncated shape => .next (s.takeError (.truncatedInstruction shape s.size))

end Sys2Proof.Machine
end

