-- ==== Sys2Proof/Machine/Operands.lean ====
section
/-! DEFINITION. The operand forms: the register and effective-address tables (R67, R69), the values
of the raw fields (R29, R71 to R73), the operand tuple of each shape (R100, R120, R123, R140), and
the bytes a tuple determines (R83). -/

namespace Sys2Proof.Machine

/-! ## Tables -/

/-- R67, `RegName(code, w)`. -/
def regName (code : RegCode) : Width → RegName
  | .byte =>
    match code with
    | 0b000 => .al
    | 0b001 => .cl
    | 0b010 => .dl
    | 0b011 => .bl
    | 0b100 => .ah
    | 0b101 => .ch
    | 0b110 => .dh
    | 0b111 => .bh
  | .word =>
    match code with
    | 0b000 => .ax
    | 0b001 => .cx
    | 0b010 => .dx
    | 0b011 => .bx
    | 0b100 => .sp
    | 0b101 => .bp
    | 0b110 => .si
    | 0b111 => .di

/-- R69, `EAExpr(rm)`. -/
def eaExpr (rm : RegCode) : EAExpr :=
  match rm with
  | 0b000 => .bxSi
  | 0b001 => .bxDi
  | 0b010 => .bpSi
  | 0b011 => .bpDi
  | 0b100 => .si
  | 0b101 => .di
  | 0b110 => .bp
  | 0b111 => .bx

/-- The registers an effective-address expression sums (R69). -/
def eaRegisters : EAExpr → List RegName
  | .bxSi => [.bx, .si]
  | .bxDi => [.bx, .di]
  | .bpSi => [.bp, .si]
  | .bpDi => [.bp, .di]
  | .si => [.si]
  | .di => [.di]
  | .bp => [.bp]
  | .bx => [.bx]

/-! ## Values of the raw fields -/

/-- R10, `sext_16(v)`. -/
def sext16 (v : Byte) : Word := v.signExtend 16

/-- R71, R72: `s(raw8)` for an 8-bit displacement, `u(raw16)` for a 16-bit one; no displacement adds
nothing. -/
def dispValue : Disp → Int
  | .noDisp => 0
  | .disp8 raw => raw.toInt
  | .disp16 raw => (raw.toNat : Int)

/-- R73: `u(addr16)`. -/
def directValue (addr : Word) : Nat := addr.toNat

/-- R29, R74: `u(raw)` at both widths. -/
def immValue : Imm → Nat
  | .imm8 raw => raw.toNat
  | .imm16 raw => raw.toNat

/-- R29: the signed view `s(raw)`, which the tuple lets a reader derive. -/
def immSigned : Imm → Int
  | .imm8 raw => raw.toInt
  | .imm16 raw => raw.toInt

/-! ## Operands and tuples -/

/-- R70: the operand an r/m form is at width `w`. -/
def rmOperand (w : Width) : RmField → Operand
  | .reg code => .reg code w
  | .mem ea => .mem ea w

/-- The accumulator: register code 000 at width `w` (R140). -/
def accumulator (w : Width) : Operand := .reg 0b000 w

/-- R100: the tuple of shape `RM` at cursor `c`. -/
def regMemTuple (d : Direction) (w : Width) (reg : RegCode) (o : RmField) (c : Nat) :
    DecodedInstr :=
  { start := c
    length := 2 + o.dispLength
    shape := .rm
    mnemonic := .mov
    w := w
    d := some d
    modrm := some (o.modrm reg)
    dest := match d with
      | .regIsDest => .reg reg w
      | .regIsSource => rmOperand w o
    src := match d with
      | .regIsDest => rmOperand w o
      | .regIsSource => .reg reg w }

/-- R120: the tuple of shape `IRM` at cursor `c`. -/
def immRmTuple (w : Width) (reg : RegCode) (o : RmField) (i : Imm) (c : Nat) : DecodedInstr :=
  { start := c
    length := 2 + o.dispLength + w.bytes
    shape := .irm
    mnemonic := .mov
    w := w
    d := none
    modrm := some (o.modrm reg)
    dest := rmOperand w o
    src := .imm i }

/-- R123: the tuple of shape `IR` at cursor `c`. -/
def immRegTuple (w : Width) (code : RegCode) (i : Imm) (c : Nat) : DecodedInstr :=
  { start := c
    length := 1 + w.bytes
    shape := .ir
    mnemonic := .mov
    w := w
    d := none
    modrm := none
    dest := .reg code w
    src := .imm i }

/-- R140: the tuple of shape `MA` at cursor `c`. -/
def memAccTuple (w : Width) (addr : Word) (c : Nat) : DecodedInstr :=
  { start := c
    length := 3
    shape := .ma
    mnemonic := .mov
    w := w
    d := none
    modrm := none
    dest := accumulator w
    src := .mem (.direct addr) w }

/-- R140: the tuple of shape `AM` at cursor `c`. -/
def accMemTuple (w : Width) (addr : Word) (c : Nat) : DecodedInstr :=
  { start := c
    length := 3
    shape := .am
    mnemonic := .mov
    w := w
    d := none
    modrm := none
    dest := .mem (.direct addr) w
    src := accumulator w }

/-! ## The bytes a tuple determines -/

/-- R83, steps 3 and 4: the displacement, direct-address or immediate bytes of one operand. -/
def operandBytes : Operand → List Byte
  | .reg _ _ => []
  | .mem (.based _ .noDisp) _ => []
  | .mem (.based _ (.disp8 raw)) _ => [raw]
  | .mem (.based _ (.disp16 raw)) _ => wordBytes raw
  | .mem (.direct addr) _ => wordBytes addr
  | .imm (.imm8 raw) => [raw]
  | .imm (.imm16 raw) => wordBytes raw

/-- R83, step 1: the leading byte from `shape`, `d`, `w` and, for `IR`, the code of `dest`. The
`none` cases belong to no tuple the decoder produces. -/
def tupleLead (t : DecodedInstr) : Option Byte :=
  match t.shape, t.d, t.dest with
  | .rm, some d, _ => some (regMemLead d t.w)
  | .irm, _, _ => some (immRmLead t.w)
  | .ir, _, .reg code _ => some (immRegLead t.w code)
  | .ma, _, _ => some (memAccLead t.w)
  | .am, _, _ => some (accMemLead t.w)
  | _, _, _ => none

/-- R83, `Encode(t)`: leading byte, mod/reg/rm byte, displacement or address, immediate. At most one
operand of a tuple is a memory operand, and an immediate is the source, so the destination's bytes
stand before the source's. -/
def encodeTuple (t : DecodedInstr) : List Byte :=
  (tupleLead t).toList ++ (t.modrm.map ModRM.toByte).toList ++ operandBytes t.dest ++
    operandBytes t.src

end Sys2Proof.Machine
end

