-- ==== Sys2Proof/Machine/Accumulator.lean ====
section
/-! DEFINITION. Shapes `MA` and `AM`: 0xA0 to 0xA3 (42_mov_accumulator.md). -/

namespace Sys2Proof.Machine

/-- R140 with S = MA, once the address is decoded. -/
def memAccCall (w : Width) (addr : Word) (s : State) : Host.Outcome State Fault Refusal :=
  beginCall s fun c => completeCall s (memAccTuple w addr c)

/-- R140 with S = AM, once the address is decoded. -/
def accMemCall (w : Width) (addr : Word) (s : State) : Host.Outcome State Fault Refusal :=
  beginCall s fun c => completeCall s (accMemTuple w addr c)

/-- R141: `MA`, W = 0. -/
def execMovAlMoffs8 (addr : Word) (s : State) : Host.Outcome State Fault Refusal :=
  memAccCall .byte addr s

/-- R142: `MA`, W = 1. -/
def execMovAxMoffs16 (addr : Word) (s : State) : Host.Outcome State Fault Refusal :=
  memAccCall .word addr s

/-- R143: `AM`, W = 0. -/
def execMovMoffs8Al (addr : Word) (s : State) : Host.Outcome State Fault Refusal :=
  accMemCall .byte addr s

/-- R144: `AM`, W = 1. -/
def execMovMoffs16Ax (addr : Word) (s : State) : Host.Outcome State Fault Refusal :=
  accMemCall .word addr s

end Sys2Proof.Machine
end

