-- ==== Sys2Proof/Machine/Immediate.lean ====
section
/-! DEFINITION. Shapes `IRM` (0xC6, 0xC7) and `IR` (0xB0 to 0xBF) (41_mov_immediate.md). -/

namespace Sys2Proof.Machine

/-- R120 once its fields are decoded, with the errors in the order it lists: the mod/reg/rm byte
missing, the reg field rejected (R76), a later field missing. -/
def immRmCall (w : Width) (reg : RegCode) (o : RmField) (i : Imm) (s : State) :
    Host.Outcome State Fault Refusal :=
  beginCall s fun c =>
    if s.size < c + 2 then .next (s.takeError (.truncatedInstruction .irm s.size))
    else if s.policy.accepts reg then completeCall s (immRmTuple w reg o i c)
    else .next (s.takeError (.unrecognizedOpcode c (immRmLead w) (some (o.modrm reg).toByte)))

/-- R121: W = 0. -/
def execMovRm8Imm8 (reg : RegCode) (o : RmField) (v : Byte) (s : State) :
    Host.Outcome State Fault Refusal :=
  immRmCall .byte reg o (.imm8 v) s

/-- R122: W = 1. -/
def execMovRm16Imm16 (reg : RegCode) (o : RmField) (v : Word) (s : State) :
    Host.Outcome State Fault Refusal :=
  immRmCall .word reg o (.imm16 v) s

/-- R123 once its fields are decoded. -/
def immRegCall (w : Width) (code : RegCode) (i : Imm) (s : State) :
    Host.Outcome State Fault Refusal :=
  beginCall s fun c => completeCall s (immRegTuple w code i c)

/-- R124: W = 0. -/
def execMovR8Imm8 (code : RegCode) (v : Byte) (s : State) : Host.Outcome State Fault Refusal :=
  immRegCall .byte code (.imm8 v) s

/-- R125: W = 1. -/
def execMovR16Imm16 (code : RegCode) (v : Word) (s : State) : Host.Outcome State Fault Refusal :=
  immRegCall .word code (.imm16 v) s

end Sys2Proof.Machine
end

