-- ==== Sys2Proof/Machine/RegMem.lean ====
section
/-! DEFINITION. Shape `RM`: register/memory to/from register, 0x88 to 0x8B (40_mov_regmem.md). -/

namespace Sys2Proof.Machine

/-- R100 once its fields are decoded. -/
def regMemCall (d : Direction) (w : Width) (reg : RegCode) (o : RmField) (s : State) :
    Host.Outcome State Fault Refusal :=
  beginCall s fun c => completeCall s (regMemTuple d w reg o c)

/-- R101: D = 0, W = 0. -/
def execMovRm8R8 (reg : RegCode) (o : RmField) (s : State) : Host.Outcome State Fault Refusal :=
  regMemCall .regIsSource .byte reg o s

/-- R102: D = 0, W = 1. -/
def execMovRm16R16 (reg : RegCode) (o : RmField) (s : State) : Host.Outcome State Fault Refusal :=
  regMemCall .regIsSource .word reg o s

/-- R103: D = 1, W = 0. -/
def execMovR8Rm8 (reg : RegCode) (o : RmField) (s : State) : Host.Outcome State Fault Refusal :=
  regMemCall .regIsDest .byte reg o s

/-- R104: D = 1, W = 1. -/
def execMovR16Rm16 (reg : RegCode) (o : RmField) (s : State) : Host.Outcome State Fault Refusal :=
  regMemCall .regIsDest .word reg o s

end Sys2Proof.Machine
end

