-- ==== Sys2Proof/Machine/Dispatch.lean ====
section
/-! DEFINITION. The meaning of every instruction, one arm per constructor. -/

namespace Sys2Proof.Machine

/-- The call whose instruction, standing at the cursor, is `i` (49_decode_call.md R150). -/
def exec (i : Instr) (s : State) : Host.Outcome State Fault Refusal :=
  match i with
  | .movRm8R8 reg rm => Sys2Proof.Machine.execMovRm8R8 reg rm s
  | .movRm16R16 reg rm => Sys2Proof.Machine.execMovRm16R16 reg rm s
  | .movR8Rm8 reg rm => Sys2Proof.Machine.execMovR8Rm8 reg rm s
  | .movR16Rm16 reg rm => Sys2Proof.Machine.execMovR16Rm16 reg rm s
  | .movRm8Imm8 reg rm imm => Sys2Proof.Machine.execMovRm8Imm8 reg rm imm s
  | .movRm16Imm16 reg rm imm => Sys2Proof.Machine.execMovRm16Imm16 reg rm imm s
  | .movR8Imm8 code imm => Sys2Proof.Machine.execMovR8Imm8 code imm s
  | .movR16Imm16 code imm => Sys2Proof.Machine.execMovR16Imm16 code imm s
  | .movAlMoffs8 addr => Sys2Proof.Machine.execMovAlMoffs8 addr s
  | .movAxMoffs16 addr => Sys2Proof.Machine.execMovAxMoffs16 addr s
  | .movMoffs8Al addr => Sys2Proof.Machine.execMovMoffs8Al addr s
  | .movMoffs16Ax addr => Sys2Proof.Machine.execMovMoffs16Ax addr s

end Sys2Proof.Machine
end

