-- ==== Sys2Proof/Machine/Step.lean ====
section
/-! DEFINITION. One step of the stream (49_decode_call.md R155): the bytes at the cursor are decoded
and their instruction is run, or the error they are is taken. -/

namespace Sys2Proof.Machine

def step (s : State) : Host.Outcome State Fault Refusal :=
  beginCall s fun c =>
    match decode s.policy (s.fetch c Config.maxLength) with
    | .ok (i, _) => exec i s
    | .error e => reportError s c e

/-- `s` with an instruction, its bits numbered as the opcode table numbers them, in the buffer where
the next step fetches: at the cursor, or at `START` where the cursor holds no value; the buffer
reaching at least past the longest instruction there, and the stream running (log entry 10). -/
def State.withFetchWord (s : State) (nbits w : Nat) : State :=
  let c := s.cursor.getD s.start
  { s with
    buf := s.buf.writeBytes c (tableBytes nbits w)
    size := max s.size (c + Config.maxLength)
    cursor := some c
    status := .running }

end Sys2Proof.Machine
end

