-- ==== Sys2Proof/Machine/DecodeCall.lean ====
section
/-! DEFINITION. `DecodeOne` (49_decode_call.md R150), the call a host may make outside a stream (R20),
line for line from the spec's pseudocode, by offsets into the buffer. The machine's `step` decodes an
instruction and runs it instead; that the two agree is a statement of its own (log entry 11). -/

namespace Sys2Proof.Machine

/-- R41, R42: `MemRead(a, 1)`, called only after `need`. -/
def memRead1 (buf : Buffer) (a : Nat) : Byte := buf.read a

/-- R42: `MemRead(a, 2) = (buf[a+1], buf[a])`, called only after `need`. -/
def memRead2 (buf : Buffer) (a : Nat) : Word := le16 (buf.read a) (buf.read (a + 1))

/-- R70, `need(p, k, shape)`. -/
def need (n p k : Nat) (shape : Shape) : Except ErrorRecord Unit :=
  if n < p + k then .error (.truncatedInstruction shape n) else .ok ()

/-- R70, `DecodeRM`. -/
def decodeRMAt (buf : Buffer) (n : Nat) (x : ModRM) (w : Width) (shape : Shape) (p : Nat) :
    Except ErrorRecord (Operand × Nat) :=
  match x.mod with
  | 0b11 => .ok (.reg x.rm w, p)
  | 0b00 =>
    if x.rm = 0b110 then do
      need n p 2 shape
      .ok (.mem (.direct (memRead2 buf p)) w, p + 2)
    else .ok (.mem (.based x.rm .noDisp) w, p)
  | 0b01 => do
    need n p 1 shape
    .ok (.mem (.based x.rm (.disp8 (memRead1 buf p))) w, p + 1)
  | 0b10 => do
    need n p 2 shape
    .ok (.mem (.based x.rm (.disp16 (memRead2 buf p))) w, p + 2)

/-- R74, `ReadImm`. -/
def readImmAt (buf : Buffer) (n : Nat) (w : Width) (p : Nat) (shape : Shape) :
    Except ErrorRecord (Imm × Nat) :=
  match w with
  | .byte => do
    need n p 1 shape
    .ok (.imm8 (memRead1 buf p), p + 1)
  | .word => do
    need n p 2 shape
    .ok (.imm16 (memRead2 buf p), p + 2)

/-- R100, `DecodeRMShape`. -/
def decodeRMShape (buf : Buffer) (n c : Nat) (d : Direction) (w : Width) :
    Except ErrorRecord (DecodedInstr × Nat) := do
  let p := c + 1
  need n p 1 .rm
  let x := ModRM.ofByte (memRead1 buf p)
  let (o, p) ← decodeRMAt buf n x w .rm (p + 1)
  let r := Operand.reg x.reg w
  .ok ({ start := c, length := p - c, shape := .rm, mnemonic := .mov, w := w, d := some d,
         modrm := some x,
         dest := match d with
           | .regIsDest => r
           | .regIsSource => o
         src := match d with
           | .regIsDest => o
           | .regIsSource => r }, p)

/-- R120, `DecodeIRMShape`. -/
def decodeIRMShape (buf : Buffer) (n : Nat) (policy : C6RegPolicy) (c : Nat) (w : Width) :
    Except ErrorRecord (DecodedInstr × Nat) := do
  let b0 := memRead1 buf c
  let p := c + 1
  need n p 1 .irm
  let m := memRead1 buf p
  let x := ModRM.ofByte m
  if x.reg ≠ 0 ∧ policy = .reject then .error (.unrecognizedOpcode c b0 (some m))
  else
    let (o, p) ← decodeRMAt buf n x w .irm (p + 1)
    let (i, p) ← readImmAt buf n w p .irm
    .ok ({ start := c, length := p - c, shape := .irm, mnemonic := .mov, w := w, d := none,
           modrm := some x, dest := o, src := .imm i }, p)

/-- R123, `DecodeIRShape`. -/
def decodeIRShape (buf : Buffer) (n c : Nat) (w : Width) (code : RegCode) :
    Except ErrorRecord (DecodedInstr × Nat) := do
  let (i, p) ← readImmAt buf n w (c + 1) .ir
  .ok ({ start := c, length := p - c, shape := .ir, mnemonic := .mov, w := w, d := none,
         modrm := none, dest := .reg code w, src := .imm i }, p)

/-- R140, `DecodeAccShape`; `fromMem` is S = MA. -/
def decodeAccShape (buf : Buffer) (n c : Nat) (fromMem : Bool) (w : Width) :
    Except ErrorRecord (DecodedInstr × Nat) := do
  let shape := if fromMem then Shape.ma else Shape.am
  let p := c + 1
  need n p 2 shape
  let acc := Operand.reg 0b000 w
  let mem := Operand.mem (.direct (memRead2 buf p)) w
  .ok ({ start := c, length := 3, shape := shape, mnemonic := .mov, w := w, d := none,
         modrm := none, dest := if fromMem then acc else mem,
         src := if fromMem then mem else acc }, p + 2)

/-- A shape procedure's end as a result of the call (R150: a `raise` ends it with `Err(e)`). -/
def callResult : Except ErrorRecord (DecodedInstr × Nat) → DecodeResult
  | .ok (t, next) => .ok t next
  | .error e => .err e

/-- R150, `DecodeOne(buf, N, c)` under a policy. -/
def decodeOne (buf : Buffer) (n : Nat) (policy : C6RegPolicy) (c : Nat) : DecodeResult :=
  if n < c then .refused
  else if c = n then .done
  else
    let b0 := memRead1 buf c
    match classify b0 with
    | .unrecognized => .err (.unrecognizedOpcode c b0 none)
    | .rm d w => callResult (decodeRMShape buf n c d w)
    | .irm w => callResult (decodeIRMShape buf n policy c w)
    | .ir w code => callResult (decodeIRShape buf n c w code)
    | .ma w => callResult (decodeAccShape buf n c true w)
    | .am w => callResult (decodeAccShape buf n c false w)

end Sys2Proof.Machine
end

