-- ==== Sys2Proof/Machine/Flags.lean ====
section
/-! DEFINITION. Flags and error codes: "The decoder computes, reads and writes no flags or condition
codes" (10_state.md R33), so State has no flag and this file no flag computation. What a realisation
with a status port reports is the numeric code of an error record (60_exceptions.md R170). -/

namespace Sys2Proof.Machine

/-- The flags of the decoder: none (R33). -/
inductive Flag where
  deriving DecidableEq, Repr

/-- "Flags: none" of every instruction rule (R101 to R104, R121, R122, R124, R125, R141 to R144). -/
def flagsWritten : Instr → List Flag
  | _ => []

/-- R170: the numeric code of an error record. -/
def errorCode : ErrorRecord → Nat
  | .unrecognizedOpcode _ _ _ => 1
  | .truncatedInstruction _ _ => 2
  | .unsupportedAddressingMode _ _ => 3

end Sys2Proof.Machine
end

