-- ==== Sys2Proof/Safety.lean ====
section
/-! DEFINITION. The terms the statements are made in: a stream about to decode at a cursor, and the
invariant of a stream (10_state.md R22 to R24, 49_decode_call.md R156, R160). -/

namespace Sys2Proof.Machine

/-- The stream is running and its cursor is `c` (R23: "the next step will decode at `cursor`"). -/
def State.runsAt (s : State) (c : Nat) : Prop := s.status = .running ∧ s.cursor = some c

/-- R27: the width of a register or memory operand; of an immediate, the width of its field (R29). -/
def operandWidth : Operand → Width
  | .reg _ w => w
  | .mem _ w => w
  | .imm (.imm8 _) => .byte
  | .imm (.imm16 _) => .word

/-- R28: an effective address that is produced. -/
def eaProduced : EA → Bool
  | .based 0b110 .noDisp => false
  | .based _ _ => true
  | .direct _ => true

/-- R28, R29: an operand that is produced in an instruction of width `w`. -/
def operandProduced (w : Width) (o : Operand) : Bool :=
  decide (operandWidth o = w) &&
    match o with
    | .reg _ _ => true
    | .mem ea _ => eaProduced ea
    | .imm _ => true

/-- R30: an `Imm` is never a `dest`. -/
def operandIsImm : Operand → Bool
  | .imm _ => true
  | .reg _ _ => false
  | .mem _ _ => false

/-- R26, R28 to R30: the length is 2 to 6, the shape is recognized, D stands exactly in shape `RM`,
the mod/reg/rm fields exactly in `RM` and `IRM`, the operands are produced ones of width W, and the
destination is no immediate. -/
def DecodedInstr.wf (t : DecodedInstr) : Bool :=
  decide (2 ≤ t.length) && decide (t.length ≤ 6) &&
  decide (t.shape ≠ .unrecognized) &&
  (t.d.isSome == decide (t.shape = .rm)) &&
  (t.modrm.isSome == decide (t.shape = .rm ∨ t.shape = .irm)) &&
  operandProduced t.w t.dest && operandProduced t.w t.src && !operandIsImm t.dest

/-! ## Streams -/

/-- R160: the tuples stand one after the other from `a` to `b` without gap or overlap. -/
def tiles (a : Nat) (b : Nat) : List DecodedInstr → Bool
  | [] => a == b
  | t :: ts => t.start == a && tiles (a + t.length) b ts

/-- A tuple of the log is what the call at its start returned (R155). -/
def loggedWell (s : State) (t : DecodedInstr) : Bool :=
  decodeOne s.buf s.size s.policy t.start == .ok t (t.start + t.length)

/-- R160: the record of a failed stream is what the call at `c` returned. -/
def errorFits (s : State) (c : Nat) (e : ErrorRecord) : Bool :=
  decodeOne s.buf s.size s.policy c == .err e

/-- The status, the cursor and the end of the log agree (R22, R23, R160). -/
def statusAgrees (s : State) : Bool :=
  match s.status with
  | .running => s.cursor == some s.failingOffset
  | .finished => s.cursor == some s.size && s.failingOffset == s.size
  | .failed e => s.cursor == none && errorFits s s.failingOffset e

/-- The invariant of a stream. -/
structure StreamInv (s : State) : Prop where
  /-- The buffer is in canonical form (log entry 2). -/
  canonical : s.buf.wf = true
  /-- It lists nothing at or above `N` (R40). -/
  bounded : s.buf.within s.size = true
  /-- The log tiles the bytes from `START` on (R160). -/
  tiled : tiles s.start s.failingOffset s.log = true
  /-- It ends at or below `N` (R153, R156). -/
  inside : s.failingOffset ≤ s.size
  /-- Every tuple is what the call at its start returned (R155). -/
  logged : s.log.all (loggedWell s) = true
  /-- The cursor stands where the log ends, while there is a cursor (R22, R156). -/
  agrees : statusAgrees s = true

end Sys2Proof.Machine
end

