-- ==== Sys2Proof/Certificates/Slice0/Obligations.lean ====
section
/-! DEFINITION. The statements for the provers. Each is about the machine; the docstring names the rule
of the spec it formalises, or says that it rests on a choice of the model. -/

open Sys2Proof Sys2Proof.Machine

/-! ## Reset and start -/

/-- R37: a stream starts with `cursor = START`, `status = Running` and an empty log, whatever the
host supplies; at `State.reset` `START` has its default 0. The stream start is the spec's own
reading (D17). -/
def Obligations.ResetStartsStreamAtStart : Prop :=
  (∀ (bytes : List Byte) (start : Nat) (policy : C6RegPolicy),
    (State.boot bytes start policy).cursor = some start ∧
    (State.boot bytes start policy).status = .running ∧
    (State.boot bytes start policy).log = []) ∧
  State.reset.start = 0 ∧ State.reset.cursor = some State.reset.start ∧
  State.reset.status = .running ∧ State.reset.log = []

/-- `State.reset` meets the invariant of a stream. It rests on log entry 1 (DESIGN CHOICE: reset has
the empty buffer). -/
def Obligations.ResetMeetsStreamInvariant : Prop := StreamInv State.reset

/-- R190, R191: the state the host starts from, for every buffer, every `START <= N` and either
policy, meets the invariant, and its buffer holds exactly the host's bytes at offsets `0 .. N-1`.
The stream start is the spec's own reading (D17), and the buffer's form the model's (log entry 2).
-/
def Obligations.BootMeetsStreamInvariant : Prop :=
  ∀ (bytes : List Byte) (start : Nat) (policy : C6RegPolicy),
    start ≤ bytes.length → StreamInv (State.boot bytes start policy) ∧
      ∀ a, (State.boot bytes start policy).memRead a = bytes[a]?

/-! ## The step -/

/-- Every step that gives a next state keeps the invariant of a stream, from every state that has
it. The invariant is R22, R156 and R160, which the spec derives, with the canonical buffer of log
entry 2. -/
def Obligations.StepKeepsStreamInvariant : Prop :=
  ∀ s s' : State, StreamInv s → step s = .next s' → StreamInv s'

/-- When the bytes at the cursor decode to an instruction, the step is `exec` of it, with nothing
added. Decoding an instruction first and running it then is the model's form of R150 (log entry 11).
-/
def Obligations.StepRunsDecodedInstruction : Prop :=
  ∀ (s : State) (c : Nat) (i : Instr) (rest : List Byte),
    s.runsAt c → c < s.size → decode s.policy (s.fetch c 6) = .ok (i, rest) →
      step s = exec i s

/-- When the bytes at the cursor are the encoding of a well-formed instruction and all of them lie
below `N`, the step is `exec` of it, and one tuple that encodes to those bytes is logged. The
model's form of R150 (log entry 11). -/
def Obligations.StepRunsEncodedInstruction : Prop :=
  ∀ (s : State) (c : Nat) (i : Instr),
    s.runsAt c → i.wellFormed s.policy = true → c + (encode i).length ≤ s.size →
    s.buf.bytesAt c (encode i).length = encode i →
      step s = exec i s ∧
      ∃ t, t.start = c ∧ t.length = (encode i).length ∧ encodeTuple t = encode i ∧
        step s = .next { s with log := s.log ++ [t], cursor := some (c + t.length) }

/-- R155: one step of a running stream is its call of `DecodeOne` at the cursor, with the successor
the rule gives each result; a stream that is not running has no step. The stream is the spec's own
reading (D13, D14). -/
def Obligations.StepAgreesWithDecodeStream : Prop :=
  (∀ (s : State) (c : Nat), s.runsAt c →
    step s =
      match decodeOne s.buf s.size s.policy c with
      | .ok t next => .next { s with log := s.log ++ [t], cursor := some next }
      | .done => .next { s with status := .finished }
      | .err e => .next { s with status := .failed e, cursor := none }
      | .refused => .refused .cursorPastEnd) ∧
  ∀ s s' : State, s.status ≠ .running → step s ≠ .next s'

/-- R156: in a stream the cursor lies between `START` and `N` while it runs, each successful step
moves it on by 2 to 6, no step is refused, and the stream ends after at most `floor((N - START) /
2)` successful steps and one final step. The spec derives the rule. -/
def Obligations.StreamEndsWithinBound : Prop :=
  ∀ (bytes : List Byte) (start : Nat) (policy : C6RegPolicy), start ≤ bytes.length →
    (∀ (k : Nat) (s : State),
      Host.Core.run Sys2Proof.core k (State.boot bytes start policy) = .next s →
        s.log.length ≤ (bytes.length - start) / 2 ∧
        (∀ r, step s ≠ .refused r) ∧
        (s.status = .running → ∃ c, s.cursor = some c ∧ start ≤ c ∧ c ≤ bytes.length ∧
          ∀ s', step s = .next s' → s'.status = .running →
            ∃ n, 2 ≤ n ∧ n ≤ 6 ∧ s'.cursor = some (c + n))) ∧
    ∃ (k : Nat) (s : State), k ≤ (bytes.length - start) / 2 + 1 ∧
      Host.Core.run Sys2Proof.core k (State.boot bytes start policy) = .next s ∧
      s.status ≠ .running

/-- R160: at every moment of a stream the log tiles the bytes from `START` on and re-encodes to
exactly them; at the end, `Finished` means that all of `START .. N-1` is in the log, and `Failed(e)`
that `e` is what the call returns where the log ends. The spec derives the rule. -/
def Obligations.WholeStreamRoundTrips : Prop :=
  ∀ (bytes : List Byte) (start : Nat) (policy : C6RegPolicy) (k : Nat) (s : State),
    start ≤ bytes.length →
    Host.Core.run Sys2Proof.core k (State.boot bytes start policy) = .next s →
      tiles start (start + s.consumed) s.log = true ∧
      s.log.flatMap encodeTuple = (bytes.drop start).take s.consumed ∧
      (s.status = .finished →
        start + s.consumed = bytes.length ∧ s.log.flatMap encodeTuple = bytes.drop start) ∧
      ∀ e, s.status = .failed e →
        decodeOne (State.boot bytes start policy).buf bytes.length policy (start + s.consumed)
          = .err e

/-- R153, R158: a call that logs a tuple starts it at the cursor, its length is 2 to 6 and the one
R79 gives for the two leading bytes, the next cursor is the old one plus the length whatever the
tuple says, and it lies at or below `N`; a call that fails logs nothing. The spec derives both
rules. -/
def Obligations.SuccessfulCallMovesPastInstruction : Prop :=
  (∀ (s s' : State) (t : DecodedInstr), step s = .next s' → s'.log = s.log ++ [t] →
    ∃ c, s.runsAt c ∧ t.start = c ∧ 2 ≤ t.length ∧ t.length ≤ 6 ∧
      t.length =
        (classify (s.buf.read c)).length (ModRM.ofByte (s.buf.read (c + 1))) ∧
      s'.cursor = some (c + t.length) ∧ c + t.length ≤ s.size ∧ s'.status = .running) ∧
  ∀ (s s' : State) (e : ErrorRecord), step s = .next s' → s'.status = .failed e → s'.log = s.log

/-- R24: a step that leaves the stream running appends exactly one tuple to the log, which starts at
the cursor; a step that ends it, or fails, appends nothing; so the log is in buffer order. -/
def Obligations.LogGrowsByOneTuple : Prop :=
  (∀ s s' : State, step s = .next s' →
    (s'.status = .running → ∃ t, s'.log = s.log ++ [t] ∧ s.cursor = some t.start) ∧
    (s'.status ≠ .running → s'.log = s.log)) ∧
  ∀ s : State, StreamInv s → s.log.Pairwise fun t u => t.start + t.length ≤ u.start

/-- R22: the cursor is at or below `N`; a successful decode moves it forward by the instruction's
length and no further than `N`; the end of the buffer leaves it where it is. No step moves it
otherwise. R22 says of the cursor after an error only that its value is not defined; that it holds no
value there is the spec's own reading (D13, `cursor <- none`), as log entry 4 (DEDUCED) models it. -/
def Obligations.CursorAdvancesOnlyForward : Prop :=
  ∀ (s s' : State) (c : Nat), StreamInv s → s.cursor = some c → step s = .next s' →
    c ≤ s.size ∧
    ((∃ t, s'.log = s.log ++ [t] ∧ s'.cursor = some (c + t.length) ∧ c < c + t.length ∧
        c + t.length ≤ s.size) ∨
      (s'.status = .finished ∧ s'.cursor = some c) ∨
      ∃ e, s'.status = .failed e ∧ s'.cursor = none)

/-- R40, R48: the frame of every step and of every instruction: the buffer, `N`, `START` and the
policy are unchanged, every offset reads as before, the log keeps what it held, and the status and
the cursor are as one of the four ends of a call leaves them. -/
def Obligations.OnlyTheStreamStateChanges : Prop :=
  ∀ (s s' : State), (step s = .next s' ∨ ∃ i, exec i s = .next s') →
    s'.buf = s.buf ∧ s'.size = s.size ∧ s'.start = s.start ∧ s'.policy = s.policy ∧
    (∀ a, s'.memRead a = s.memRead a) ∧
    (s' = { s with status := .finished } ∨
      (∃ e, s' = { s with status := .failed e, cursor := none }) ∨
      ∃ t, s' = { s with log := s.log ++ [t], cursor := some (t.start + t.length) })

/-! ## Encoding -/

/-- Words written out from the encodings and examples of the rules decode to the instructions they
stand for. -/
def Obligations.SpecWordsDecode : Prop :=
  decode .reject [0x88, 0xE5] = .ok (.movRm8R8 0b100 (.reg 0b101), []) ∧
  decode .reject [0x89, 0xDE] = .ok (.movRm16R16 0b011 (.reg 0b110), []) ∧
  decode .reject [0x8A, 0x00] = .ok (.movR8Rm8 0b000 (.mem (.based 0b000 .noDisp)), []) ∧
  decode .reject [0x8B, 0x56, 0x00] =
    .ok (.movR16Rm16 0b010 (.mem (.based 0b110 (.disp8 0x00))), []) ∧
  decode .reject [0xC6, 0x06, 0x00, 0x10, 0x07] =
    .ok (.movRm8Imm8 0b000 (.mem (.direct 0x1000)) 0x07, []) ∧
  decode .reject [0xC7, 0x85, 0x85, 0x03, 0x5B, 0x01] =
    .ok (.movRm16Imm16 0b000 (.mem (.based 0b101 (.disp16 0x0385))) 0x015B, []) ∧
  decode .reject [0xB1, 0x0C] = .ok (.movR8Imm8 0b001 0x0C, []) ∧
  decode .reject [0xB9, 0xF4, 0xFF] = .ok (.movR16Imm16 0b001 0xFFF4, []) ∧
  decode .reject [0xA1, 0xFB, 0x09] = .ok (.movAxMoffs16 0x09FB, []) ∧
  decode .reject [0xA3, 0x00, 0x20] = .ok (.movMoffs16Ax 0x2000, [])

/-- Decoding the encoding of a well-formed instruction, whatever bytes follow it, gives back the
instruction and those bytes. -/
def Obligations.DecodeOfEncodeIsIdentity : Prop :=
  ∀ (policy : C6RegPolicy) (i : Instr) (rest : List Byte), i.wellFormed policy = true →
    decode policy (encode i ++ rest) = .ok (i, rest)

/-- What decodes was the encoding of the instruction it decodes to, and that instruction is well
formed: the decoder drops no bit. -/
def Obligations.DecodedBytesAreTheEncoding : Prop :=
  ∀ (policy : C6RegPolicy) (bs : List Byte) (i : Instr) (rest : List Byte),
    decode policy bs = .ok (i, rest) → bs = encode i ++ rest ∧ i.wellFormed policy = true

/-- R79: the length of an instruction is told from its first two bytes, as the rule computes it. The
spec derives the rule. -/
def Obligations.LengthFromFirstTwoBytes : Prop :=
  ∀ (policy : C6RegPolicy) (i : Instr), i.wellFormed policy = true →
    ∃ b0 m rest, encode i = b0 :: m :: rest ∧
      (encode i).length = (classify b0).length (ModRM.ofByte m)

/-- R83: the tuple a call logs encodes to the bytes from its cursor to the next one; so two calls
whose tuples differ at most in where they start were made on equal bytes. The spec derives the rule.
-/
def Obligations.TupleDeterminesItsBytes : Prop :=
  (∀ (s s' : State) (t : DecodedInstr), step s = .next s' → s'.log = s.log ++ [t] →
    encodeTuple t = s.buf.bytesAt t.start t.length ∧ s.cursor = some t.start ∧
      s'.cursor = some (t.start + t.length)) ∧
  ∀ (s₁ s₁' s₂ s₂' : State) (t₁ t₂ : DecodedInstr),
    step s₁ = .next s₁' → s₁'.log = s₁.log ++ [t₁] →
    step s₂ = .next s₂' → s₂'.log = s₂.log ++ [t₂] →
    { t₁ with start := 0, length := 0 } = { t₂ with start := 0, length := 0 } →
      s₁.buf.bytesAt t₁.start t₁.length = s₂.buf.bytesAt t₂.start t₂.length

/-- R26, R28, R30: every tuple a call logs has a length of 2 to 6, a recognized shape, a D bit
exactly in shape `RM`, mod/reg/rm fields exactly in `RM` and `IRM`, operands of width W none of
which is `Based(110, NoDisp)`, and a destination that is no immediate. The types are in part the
spec's own (D5, D22, D24). -/
def Obligations.LoggedTupleHasTheTupleForm : Prop :=
  ∀ (s s' : State) (t : DecodedInstr), step s = .next s' → s'.log = s.log ++ [t] → t.wf = true

/-- R61: the five formats, bit by bit, and the leading bytes of each shape. -/
def Obligations.FiveLeadingByteFormats : Prop :=
  (∀ d w, classify (0b100010#6 ++ Direction.bit d ++ Width.bit w) = .rm d w) ∧
  (∀ w, classify (0b1100011#7 ++ Width.bit w) = .irm w) ∧
  (∀ w (code : RegCode), classify (0b1011#4 ++ Width.bit w ++ code) = .ir w code) ∧
  (∀ w, classify (0b1010000#7 ++ Width.bit w) = .ma w) ∧
  (∀ w, classify (0b1010001#7 ++ Width.bit w) = .am w) ∧
  ∀ b0 : Byte,
    ((classify b0).shape = .rm ↔ 0x88 ≤ b0.toNat ∧ b0.toNat ≤ 0x8B) ∧
    ((classify b0).shape = .irm ↔ 0xC6 ≤ b0.toNat ∧ b0.toNat ≤ 0xC7) ∧
    ((classify b0).shape = .ir ↔ 0xB0 ≤ b0.toNat ∧ b0.toNat ≤ 0xBF) ∧
    ((classify b0).shape = .ma ↔ 0xA0 ≤ b0.toNat ∧ b0.toNat ≤ 0xA1) ∧
    ((classify b0).shape = .am ↔ 0xA2 ≤ b0.toNat ∧ b0.toNat ≤ 0xA3)

/-- R63: at most one of the five tests succeeds on a byte, so whatever order they are made in, the
first that succeeds gives the classifier's verdict. The spec derives the rule. -/
def Obligations.TestOrderDoesNotMatter : Prop :=
  let tests : List (Byte × Byte × (Byte → Classified)) :=
    [(0xFC, 0x88, fun b => .rm (.ofBit (b.getLsbD 1)) (.ofBit (b.getLsbD 0))),
     (0xFE, 0xC6, fun b => .irm (.ofBit (b.getLsbD 0))),
     (0xF0, 0xB0, fun b => .ir (.ofBit (b.getLsbD 3)) (b.extractLsb' 0 3)),
     (0xFE, 0xA0, fun b => .ma (.ofBit (b.getLsbD 0))),
     (0xFE, 0xA2, fun b => .am (.ofBit (b.getLsbD 0)))]
  (tests.Pairwise fun p q => ∀ b : Byte, ¬(b &&& p.1 = p.2.1 ∧ b &&& q.1 = q.2.1)) ∧
  ∀ order : List (Byte × Byte × (Byte → Classified)), order.Perm tests → ∀ b : Byte,
    ((order.find? fun p => decide (b &&& p.1 = p.2.1)).elim .unrecognized fun p => p.2.2 b) =
      classify b

/-- R80: the 230 unrecognized leading bytes, and the error each one ends a call with, whatever
stands after it. The spec's own in part (D19). -/
def Obligations.UnrecognizedByteEndsTheStream : Prop :=
  (∀ b0 : Byte, classify b0 = .unrecognized ↔
    b0.toNat ≤ 0x87 ∨ (0x8C ≤ b0.toNat ∧ b0.toNat ≤ 0x9F) ∨
    (0xA4 ≤ b0.toNat ∧ b0.toNat ≤ 0xAF) ∨ (0xC0 ≤ b0.toNat ∧ b0.toNat ≤ 0xC5) ∨
    0xC8 ≤ b0.toNat) ∧
  ((List.range 256).filter fun n =>
    decide (classify (BitVec.ofNat 8 n) = .unrecognized)).length = 230 ∧
  ∀ (s : State) (c : Nat), s.runsAt c → c < s.size → classify (s.buf.read c) = .unrecognized →
    step s = .next { s with
      status := .failed (.unrecognizedOpcode c (s.buf.read c) none), cursor := none }

/-- R64: where the three fields of the mod/reg/rm byte stand, and that they are all of it. -/
def Obligations.ModRegRmFieldPositions : Prop :=
  (∀ m : Byte, (ModRM.ofByte m).mod.toNat = m.toNat / 64 ∧
    (ModRM.ofByte m).reg.toNat = m.toNat / 8 % 8 ∧ (ModRM.ofByte m).rm.toNat = m.toNat % 8) ∧
  ModRM.ofByte 0xDE = { mod := 0b11, reg := 0b011, rm := 0b110 } ∧
  ModRM.ofByte 0x56 = { mod := 0b01, reg := 0b010, rm := 0b110 } ∧
  (ModRM.ofByte 0x00).mod = 0b00 ∧ (ModRM.ofByte 0x00).rm = 0b000

/-- R65: what each value of mod makes of rm and of the bytes that follow, the direct address at mod = 00
and rm = 110 (R66) among them, and that a missing byte is `TruncatedInstruction` (R70). -/
def Obligations.ModSelectsTheAddressingForm : Prop :=
  ∀ (shape : Shape) (reg rm : RegCode) (bs : List Byte) (b lo hi : Byte),
    decodeRmField shape ⟨0b11, reg, rm⟩ bs = .ok (.reg rm, bs) ∧
    (rm ≠ 0b110 →
      decodeRmField shape ⟨0b00, reg, rm⟩ bs = .ok (.mem (.based rm .noDisp), bs)) ∧
    decodeRmField shape ⟨0b00, reg, 0b110⟩ (lo :: hi :: bs) =
      .ok (.mem (.direct (hi ++ lo)), bs) ∧
    decodeRmField shape ⟨0b00, reg, 0b110⟩ [lo] = .error (.truncated shape) ∧
    decodeRmField shape ⟨0b00, reg, 0b110⟩ [] = .error (.truncated shape) ∧
    decodeRmField shape ⟨0b01, reg, rm⟩ (b :: bs) = .ok (.mem (.based rm (.disp8 b)), bs) ∧
    decodeRmField shape ⟨0b01, reg, rm⟩ [] = .error (.truncated shape) ∧
    decodeRmField shape ⟨0b10, reg, rm⟩ (lo :: hi :: bs) =
      .ok (.mem (.based rm (.disp16 (hi ++ lo))), bs) ∧
    decodeRmField shape ⟨0b10, reg, rm⟩ [lo] = .error (.truncated shape) ∧
    decodeRmField shape ⟨0b10, reg, rm⟩ [] = .error (.truncated shape)

/-- R67: the register table, entry by entry, so that no two of its 16 entries share a name. -/
def Obligations.RegisterTableIsInjective : Prop :=
  ((List.range 8).map fun n => regName (BitVec.ofNat 3 n) .byte) =
    [.al, .cl, .dl, .bl, .ah, .ch, .dh, .bh] ∧
  ((List.range 8).map fun n => regName (BitVec.ofNat 3 n) .word) =
    [.ax, .cx, .dx, .bx, .sp, .bp, .si, .di] ∧
  ∀ (code code' : RegCode) (w w' : Width), regName code w = regName code' w' →
    code = code' ∧ w = w'

/-- R69: the effective-address table, as the registers each expression sums; a based operand has the rm
field of its byte, comes only of a mod that is not 11, and for rm = 110 only of one that is not 00. -/
def Obligations.EffectiveAddressTable : Prop :=
  ((List.range 8).map fun n => eaRegisters (eaExpr (BitVec.ofNat 3 n))) =
    [[.bx, .si], [.bx, .di], [.bp, .si], [.bp, .di], [.si], [.di], [.bp], [.bx]] ∧
  ∀ (shape : Shape) (x : ModRM) (bs rest : List Byte) (rm : RegCode) (d : Disp),
    decodeRmField shape x bs = .ok (.mem (.based rm d), rest) →
      rm = x.rm ∧ x.mod ≠ 0b11 ∧ (rm = 0b110 → x.mod ≠ 0b00)

/-- R71, R72: an 8-bit displacement is one byte, kept raw, signed, and has the value of its 16-bit sign
extension; a 16-bit one is two bytes, kept raw, and unsigned. -/
def Obligations.DisplacementValues : Prop :=
  (∀ (shape : Shape) (reg rm : RegCode) (bs : List Byte) (raw8 lo hi : Byte),
    decodeRmField shape ⟨0b01, reg, rm⟩ (raw8 :: bs) =
      .ok (.mem (.based rm (.disp8 raw8)), bs) ∧
    decodeRmField shape ⟨0b10, reg, rm⟩ (lo :: hi :: bs) =
      .ok (.mem (.based rm (.disp16 (hi ++ lo))), bs)) ∧
  (∀ raw8 : Byte, -128 ≤ dispValue (.disp8 raw8) ∧ dispValue (.disp8 raw8) ≤ 127 ∧
    dispValue (.disp8 raw8) =
      (if raw8.toNat < 128 then (raw8.toNat : Int) else (raw8.toNat : Int) - 256) ∧
    (sext16 raw8).toInt = dispValue (.disp8 raw8)) ∧
  (∀ raw16 : Word, dispValue (.disp16 raw16) = raw16.toNat ∧ dispValue (.disp16 raw16) ≤ 65535) ∧
  dispValue (.disp8 0xFD) = -3 ∧ dispValue (.disp8 0x7F) = 127 ∧
  dispValue (.disp16 (le16 0xFE 0xFF)) = 65534

/-- R74: an immediate is one byte at W = 0 and two bytes, low byte first, at W = 1, each checked to lie
below `N`; its value is unsigned at both widths, and no byte is widened to a word. -/
def Obligations.ImmediateFieldsAreUnsigned : Prop :=
  (∀ (buf : Buffer) (n p : Nat) (shape : Shape),
    (p + 1 ≤ n → readImmAt buf n .byte p shape = .ok (.imm8 (buf.read p), p + 1)) ∧
    (p + 2 ≤ n → readImmAt buf n .word p shape =
      .ok (.imm16 (buf.read (p + 1) ++ buf.read p), p + 2)) ∧
    (n < p + 1 → readImmAt buf n .byte p shape = .error (.truncatedInstruction shape n)) ∧
    (n < p + 2 → readImmAt buf n .word p shape = .error (.truncatedInstruction shape n))) ∧
  (∀ raw : Byte, immValue (.imm8 raw) = raw.toNat ∧ immValue (.imm8 raw) < 256) ∧
  ∀ raw : Word, immValue (.imm16 raw) = raw.toNat ∧ immValue (.imm16 raw) < 65536

/-- R29, the spec's own choice (D6): the value of an immediate is the unsigned one, and the signed
reading can be derived from the raw field at both widths. -/
def Obligations.ImmediateKeepsBothReadings : Prop :=
  (∀ raw : Byte, immSigned (.imm8 raw) =
    (if raw.toNat < 128 then (immValue (.imm8 raw) : Int) else (immValue (.imm8 raw) : Int) - 256)) ∧
  (∀ raw : Word, immSigned (.imm16 raw) =
    (if raw.toNat < 32768 then (immValue (.imm16 raw) : Int)
      else (immValue (.imm16 raw) : Int) - 65536)) ∧
  immValue (.imm16 0xFFF4) = 65524 ∧ immSigned (.imm16 0xFFF4) = -12

/-- R42: a 16-bit field has its low byte at the lower offset, in decoding, in encoding and in
`MemRead(a, 2)`. -/
def Obligations.FieldsAreLittleEndian : Prop :=
  (∀ lo hi : Byte, (le16 lo hi).toNat = lo.toNat + 256 * hi.toNat) ∧
  (∀ (buf : Buffer) (a : Nat),
    (memRead2 buf a).toNat = (buf.read a).toNat + 256 * (buf.read (a + 1)).toNat) ∧
  (∀ (shape : Shape) (lo hi : Byte) (bs : List Byte),
    takeWord shape (lo :: hi :: bs) = .ok (le16 lo hi, bs)) ∧
  ∀ v : Word, ∃ lo hi, wordBytes v = [lo, hi] ∧ v.toNat = lo.toNat + 256 * hi.toNat

/-! ## The instructions -/

/-- R100 to R104: each instruction of shape `RM`, standing at the cursor of a running stream, with
every register code and every r/m form. Where its bytes lie below `N` it logs the tuple of its rule
and the cursor moves past it, nothing else changing; where they do not, it takes
`TruncatedInstruction(RM, N)`. Its encoding is the leading byte, the mod/reg/rm byte and the
displacement. It writes no flags. -/
def Obligations.RegMemMovesLogTheirTuple : Prop :=
  ∀ (s : State) (c : Nat) (reg : RegCode) (o : RmField), s.runsAt c → c < s.size →
    (c + (2 + o.dispLength) ≤ s.size →
      exec (.movRm8R8 reg o) s = .next { s with
        log := s.log ++ [{
          start := c, length := 2 + o.dispLength, shape := .rm, mnemonic := .mov,
          w := .byte, d := some .regIsSource, modrm := some (o.modrm reg),
          dest := rmOperand .byte o, src := .reg reg .byte }],
        cursor := some (c + (2 + o.dispLength)) } ∧
      exec (.movRm16R16 reg o) s = .next { s with
        log := s.log ++ [{
          start := c, length := 2 + o.dispLength, shape := .rm, mnemonic := .mov,
          w := .word, d := some .regIsSource, modrm := some (o.modrm reg),
          dest := rmOperand .word o, src := .reg reg .word }],
        cursor := some (c + (2 + o.dispLength)) } ∧
      exec (.movR8Rm8 reg o) s = .next { s with
        log := s.log ++ [{
          start := c, length := 2 + o.dispLength, shape := .rm, mnemonic := .mov,
          w := .byte, d := some .regIsDest, modrm := some (o.modrm reg),
          dest := .reg reg .byte, src := rmOperand .byte o }],
        cursor := some (c + (2 + o.dispLength)) } ∧
      exec (.movR16Rm16 reg o) s = .next { s with
        log := s.log ++ [{
          start := c, length := 2 + o.dispLength, shape := .rm, mnemonic := .mov,
          w := .word, d := some .regIsDest, modrm := some (o.modrm reg),
          dest := .reg reg .word, src := rmOperand .word o }],
        cursor := some (c + (2 + o.dispLength)) }) ∧
    (∀ i ∈ [Instr.movRm8R8 reg o, .movRm16R16 reg o, .movR8Rm8 reg o, .movR16Rm16 reg o],
      flagsWritten i = [] ∧
      (s.size < c + (2 + o.dispLength) → exec i s = .next { s with
        status := .failed (.truncatedInstruction .rm s.size), cursor := none })) ∧
    encode (.movRm8R8 reg o) = 0x88 :: (o.modrm reg).toByte :: o.dispBytes ∧
    encode (.movRm16R16 reg o) = 0x89 :: (o.modrm reg).toByte :: o.dispBytes ∧
    encode (.movR8Rm8 reg o) = 0x8A :: (o.modrm reg).toByte :: o.dispBytes ∧
    encode (.movR16Rm16 reg o) = 0x8B :: (o.modrm reg).toByte :: o.dispBytes

/-- R120 to R122, R76: each instruction of shape `IRM`, standing at the cursor of a running stream.
A missing mod/reg/rm byte is `TruncatedInstruction(IRM, N)`; then a reg field other than 000 under
`Reject` is `UnrecognizedOpcode` with the leading byte and the mod/reg/rm byte; then a missing later
byte is `TruncatedInstruction(IRM, N)`; else the tuple of the rule is logged, reg recorded as it
stands, and the cursor moves past the instruction. The treatment of reg is the spec's own (D4), and
the shared procedure in part (D23). -/
def Obligations.ImmediateToRmMovesLogTheirTuple : Prop :=
  ∀ (s : State) (c : Nat) (reg : RegCode) (o : RmField) (v8 : Byte) (v16 : Word),
    s.runsAt c → c < s.size →
    (s.size < c + 2 →
      exec (.movRm8Imm8 reg o v8) s = .next { s with
        status := .failed (.truncatedInstruction .irm s.size), cursor := none } ∧
      exec (.movRm16Imm16 reg o v16) s = .next { s with
        status := .failed (.truncatedInstruction .irm s.size), cursor := none }) ∧
    (c + 2 ≤ s.size → reg ≠ 0b000 → s.policy = .reject →
      exec (.movRm8Imm8 reg o v8) s = .next { s with
        status := .failed (.unrecognizedOpcode c 0xC6 (some (o.modrm reg).toByte)),
        cursor := none } ∧
      exec (.movRm16Imm16 reg o v16) s = .next { s with
        status := .failed (.unrecognizedOpcode c 0xC7 (some (o.modrm reg).toByte)),
        cursor := none }) ∧
    (reg = 0b000 ∨ s.policy = .ignore →
      (s.size < c + (2 + o.dispLength + 1) →
        exec (.movRm8Imm8 reg o v8) s = .next { s with
          status := .failed (.truncatedInstruction .irm s.size), cursor := none }) ∧
      (s.size < c + (2 + o.dispLength + 2) →
        exec (.movRm16Imm16 reg o v16) s = .next { s with
          status := .failed (.truncatedInstruction .irm s.size), cursor := none }) ∧
      (c + (2 + o.dispLength + 1) ≤ s.size →
        exec (.movRm8Imm8 reg o v8) s = .next { s with
          log := s.log ++ [{
            start := c, length := 2 + o.dispLength + 1, shape := .irm,
            mnemonic := .mov, w := .byte, d := none, modrm := some (o.modrm reg),
            dest := rmOperand .byte o, src := .imm (.imm8 v8) }],
          cursor := some (c + (2 + o.dispLength + 1)) }) ∧
      (c + (2 + o.dispLength + 2) ≤ s.size →
        exec (.movRm16Imm16 reg o v16) s = .next { s with
          log := s.log ++ [{
            start := c, length := 2 + o.dispLength + 2, shape := .irm,
            mnemonic := .mov, w := .word, d := none, modrm := some (o.modrm reg),
            dest := rmOperand .word o, src := .imm (.imm16 v16) }],
          cursor := some (c + (2 + o.dispLength + 2)) })) ∧
    flagsWritten (.movRm8Imm8 reg o v8) = [] ∧ flagsWritten (.movRm16Imm16 reg o v16) = [] ∧
    encode (.movRm8Imm8 reg o v8) = 0xC6 :: (o.modrm reg).toByte :: (o.dispBytes ++ [v8]) ∧
    encode (.movRm16Imm16 reg o v16) =
      0xC7 :: (o.modrm reg).toByte :: (o.dispBytes ++ wordBytes v16)

/-- R123 to R125: each instruction of shape `IR`, standing at the cursor of a running stream: the
tuple of the rule, or `TruncatedInstruction(IR, N)` where its bytes do not all lie below `N`. -/
def Obligations.ImmediateToRegisterMovesLogTheirTuple : Prop :=
  ∀ (s : State) (c : Nat) (code : RegCode) (v8 : Byte) (v16 : Word),
    s.runsAt c → c < s.size →
    (c + 2 ≤ s.size → exec (.movR8Imm8 code v8) s = .next { s with
      log := s.log ++ [{
        start := c, length := 2, shape := .ir, mnemonic := .mov, w := .byte,
        d := none, modrm := none, dest := .reg code .byte, src := .imm (.imm8 v8) }],
      cursor := some (c + 2) }) ∧
    (c + 3 ≤ s.size → exec (.movR16Imm16 code v16) s = .next { s with
      log := s.log ++ [{
        start := c, length := 3, shape := .ir, mnemonic := .mov, w := .word,
        d := none, modrm := none, dest := .reg code .word, src := .imm (.imm16 v16) }],
      cursor := some (c + 3) }) ∧
    (s.size < c + 2 → exec (.movR8Imm8 code v8) s = .next { s with
      status := .failed (.truncatedInstruction .ir s.size), cursor := none }) ∧
    (s.size < c + 3 → exec (.movR16Imm16 code v16) s = .next { s with
      status := .failed (.truncatedInstruction .ir s.size), cursor := none }) ∧
    flagsWritten (.movR8Imm8 code v8) = [] ∧ flagsWritten (.movR16Imm16 code v16) = [] ∧
    encode (.movR8Imm8 code v8) = [BitVec.ofNat 8 (0xB0 + code.toNat), v8] ∧
    encode (.movR16Imm16 code v16) = BitVec.ofNat 8 (0xB8 + code.toNat) :: wordBytes v16

/-- R140 to R144: each instruction of shapes `MA` and `AM`, standing at the cursor of a running
stream: the tuple of the rule, with the accumulator al or ax, or `TruncatedInstruction` of its shape
where its three bytes do not all lie below `N`. The shared procedure is in part the spec's own
(D20). -/
def Obligations.AccumulatorMovesLogTheirTuple : Prop :=
  ∀ (s : State) (c : Nat) (addr : Word), s.runsAt c → c < s.size →
    (c + 3 ≤ s.size →
      exec (.movAlMoffs8 addr) s = .next { s with
        log := s.log ++ [{
          start := c, length := 3, shape := .ma, mnemonic := .mov, w := .byte,
          d := none, modrm := none, dest := .reg 0b000 .byte, src := .mem (.direct addr) .byte }],
        cursor := some (c + 3) } ∧
      exec (.movAxMoffs16 addr) s = .next { s with
        log := s.log ++ [{
          start := c, length := 3, shape := .ma, mnemonic := .mov, w := .word,
          d := none, modrm := none, dest := .reg 0b000 .word, src := .mem (.direct addr) .word }],
        cursor := some (c + 3) } ∧
      exec (.movMoffs8Al addr) s = .next { s with
        log := s.log ++ [{
          start := c, length := 3, shape := .am, mnemonic := .mov, w := .byte,
          d := none, modrm := none, dest := .mem (.direct addr) .byte, src := .reg 0b000 .byte }],
        cursor := some (c + 3) } ∧
      exec (.movMoffs16Ax addr) s = .next { s with
        log := s.log ++ [{
          start := c, length := 3, shape := .am, mnemonic := .mov, w := .word,
          d := none, modrm := none, dest := .mem (.direct addr) .word, src := .reg 0b000 .word }],
        cursor := some (c + 3) }) ∧
    (s.size < c + 3 →
      (∀ i ∈ [Instr.movAlMoffs8 addr, .movAxMoffs16 addr], exec i s = .next { s with
        status := .failed (.truncatedInstruction .ma s.size), cursor := none }) ∧
      ∀ i ∈ [Instr.movMoffs8Al addr, .movMoffs16Ax addr], exec i s = .next { s with
        status := .failed (.truncatedInstruction .am s.size), cursor := none }) ∧
    (∀ i ∈ [Instr.movAlMoffs8 addr, .movAxMoffs16 addr, .movMoffs8Al addr, .movMoffs16Ax addr],
      flagsWritten i = []) ∧
    encode (.movAlMoffs8 addr) = 0xA0 :: wordBytes addr ∧
    encode (.movAxMoffs16 addr) = 0xA1 :: wordBytes addr ∧
    encode (.movMoffs8Al addr) = 0xA2 :: wordBytes addr ∧
    encode (.movMoffs16Ax addr) = 0xA3 :: wordBytes addr

/-- R82: byte sequences that describe one move decode to tuples of their own, each encoding back to
its own bytes; the first three pairs have equal operands all the same. The spec's own choice (D5).
-/
def Obligations.RedundantEncodingsStayApart : Prop :=
  let logged (bytes : List Byte) : Option DecodedInstr :=
    match step (State.boot bytes 0 .reject) with
    | .next s => s.log.head?
    | _ => none
  (∀ p ∈ ([([0x88, 0xD8], [0x8A, 0xC3]), ([0xB0, 0x05], [0xC6, 0xC0, 0x05]),
      ([0xA1, 0x34, 0x12], [0x8B, 0x06, 0x34, 0x12]), ([0x8B, 0x07], [0x8B, 0x47, 0x00]),
      ([0x8B, 0x47, 0x00], [0x8B, 0x87, 0x00, 0x00])] : List (List Byte × List Byte)),
    ∃ t t', logged p.1 = some t ∧ logged p.2 = some t' ∧ t ≠ t' ∧
      encodeTuple t = p.1 ∧ encodeTuple t' = p.2) ∧
  ∀ p ∈ ([([0x88, 0xD8], [0x8A, 0xC3]), ([0xB0, 0x05], [0xC6, 0xC0, 0x05]),
      ([0xA1, 0x34, 0x12], [0x8B, 0x06, 0x34, 0x12])] : List (List Byte × List Byte)),
    ∃ t t', logged p.1 = some t ∧ logged p.2 = some t' ∧ t.dest = t'.dest ∧ t.src = t'.src

/-! ## Errors and ends -/

/-- R175: a step or an instruction that ends in an error records it, leaves the cursor without a
value and changes nothing else; the log is unchanged. The spec's own reading (D13). -/
def Obligations.ErrorLeavesLogAndNoCursor : Prop :=
  ∀ (s s' : State) (e : ErrorRecord), (step s = .next s' ∨ ∃ i, exec i s = .next s') →
    s'.status = .failed e → s' = { s with status := .failed e, cursor := none } ∧ s'.log = s.log

/-- R171: the two causes of `UnrecognizedOpcode`, with what the record holds in each, and no other.
The record and the second cause are the spec's own (D4, D11). -/
def Obligations.UnrecognizedOpcodeCauses : Prop :=
  ∀ (s : State) (c : Nat), s.runsAt c → c < s.size →
    ∀ (offset : Nat) (pattern : Byte) (second : Option Byte),
      step s = .next { s with
        status := .failed (.unrecognizedOpcode offset pattern second), cursor := none } ↔
      offset = c ∧ pattern = s.buf.read c ∧
      ((second = none ∧ classify (s.buf.read c) = .unrecognized) ∨
        (second = some (s.buf.read (c + 1)) ∧ (∃ w, classify (s.buf.read c) = .irm w) ∧
          c + 1 < s.size ∧ (ModRM.ofByte (s.buf.read (c + 1))).reg ≠ 0b000 ∧
          s.policy = .reject))

/-- R172: when `TruncatedInstruction` is raised, by shape, with `rem = N - c` bytes available; the
recorded offset is `N`. The recorded offset is the spec's own (D10). -/
def Obligations.TruncatedInstructionCauses : Prop :=
  ∀ (s : State) (c : Nat), s.runsAt c → c < s.size →
    ∀ (shape : Shape) (offset : Nat),
      step s = .next { s with
        status := .failed (.truncatedInstruction shape offset), cursor := none } ↔
      offset = s.size ∧ shape = (classify (s.buf.read c)).shape ∧
      match classify (s.buf.read c) with
      | .rm _ _ =>
        s.size - c < 2 ∨ s.size - c < 2 + (ModRM.ofByte (s.buf.read (c + 1))).dispLength
      | .irm w =>
        s.size - c < 2 ∨
          (((ModRM.ofByte (s.buf.read (c + 1))).reg = 0b000 ∨ s.policy = .ignore) ∧
            s.size - c < 2 + (ModRM.ofByte (s.buf.read (c + 1))).dispLength + 1 + (Width.bit w).toNat)
      | .ir w _ => s.size - c < 2 + (Width.bit w).toNat
      | .ma _ => s.size - c < 3
      | .am _ => s.size - c < 3
      | .unrecognized => False

/-- R173: no step and no instruction ends in `UnsupportedAddressingMode`. The spec's own reading
(D15). -/
def Obligations.UnsupportedAddressingModeNeverRaised : Prop :=
  ∀ (s s' : State) (offset : Nat) (shape : Shape),
    (step s = .next s' ∨ ∃ i, exec i s = .next s') →
      s'.status ≠ .failed (.unsupportedAddressingMode offset shape)

/-- R174: the first of the eight conditions that holds decides the result of the call. The order is
the spec's own (D12). -/
def Obligations.FirstConditionDecidesTheResult : Prop :=
  ∀ (s : State) (c : Nat), s.runsAt c →
    let k := classify (s.buf.read c)
    let x := ModRM.ofByte (s.buf.read (c + 1))
    let truncated : Host.Outcome State Fault Refusal :=
      .next { s with status := .failed (.truncatedInstruction k.shape s.size), cursor := none }
    if s.size < c then step s = .refused .cursorPastEnd
    else if c = s.size then step s = .next { s with status := .finished }
    else if k = .unrecognized then step s = .next { s with
      status := .failed (.unrecognizedOpcode c (s.buf.read c) none), cursor := none }
    else if (k.shape = .rm ∨ k.shape = .irm) ∧ s.size < c + 2 then step s = truncated
    else if k.shape = .irm ∧ x.reg ≠ 0b000 ∧ s.policy = .reject then step s = .next { s with
      status := .failed (.unrecognizedOpcode c (s.buf.read c) (some (s.buf.read (c + 1)))),
      cursor := none }
    else if (k.shape = .rm ∨ k.shape = .irm) ∧ s.size < c + 2 + x.dispLength ∨
      (k.shape = .ma ∨ k.shape = .am) ∧ s.size < c + 3 then step s = truncated
    else if s.size < c + k.length x then step s = truncated
    else ∃ t, step s = .next { s with log := s.log ++ [t], cursor := some (c + t.length) }

/-- R177: no step leads on from a stream that has failed, so from any start a run meets at most one
failed state, however many steps it is given: no second error is raised, and the first is neither
replaced nor cleared. The spec derives the rule. -/
def Obligations.FirstErrorIsKept : Prop :=
  (∀ (s s' : State) (e : ErrorRecord), s.status = .failed e → step s ≠ .next s') ∧
  ∀ (s s₁ s₂ : State) (e₁ e₂ : ErrorRecord) (k j : Nat),
    Host.Core.run Sys2Proof.core k s = .next s₁ → s₁.status = .failed e₁ →
    Host.Core.run Sys2Proof.core j s = .next s₂ → s₂.status = .failed e₂ → k = j ∧ s₁ = s₂

/-- R178: at the end of the buffer the stream is `Finished`, whatever the buffer holds, and never
`Failed`; that is the only way to `Finished`: an instruction cut short by the end of the buffer,
wherever it is cut, is `TruncatedInstruction`. What R178 does not say of that error is the spec's own:
the record's offset is `N` (D10), and the cursor then holds no value (D13; log entry 4, DEDUCED). -/
def Obligations.DoneExactlyAtTheEnd : Prop :=
  (∀ s : State, s.runsAt s.size → step s = .next { s with status := .finished }) ∧
  (∀ s s' : State, step s = .next s' → s'.status = .finished → s.runsAt s.size) ∧
  ∀ (s : State) (c : Nat) (i : Instr), s.runsAt c → c < s.size → i.wellFormed s.policy = true →
    s.size < c + (encode i).length →
    s.buf.bytesAt c (s.size - c) = (encode i).take (s.size - c) →
      step s = .next { s with
        status := .failed (.truncatedInstruction (classify (s.buf.read c)).shape s.size),
        cursor := none }

/-- R152: a call with the cursor past the end is refused, that is the only refusal, and a stream
never makes such a call. The spec's own reading (D9). -/
def Obligations.RefusedOnlyPastTheEnd : Prop :=
  (∀ (s : State) (c : Nat), s.runsAt c → s.size < c → step s = .refused .cursorPastEnd) ∧
  (∀ (s : State) (r : Refusal), step s = .refused r → ∃ c, s.runsAt c ∧ s.size < c) ∧
  ∀ s : State, StreamInv s → ∀ r, step s ≠ .refused r

/-- The model's stops: a stream that has ended has no step, for any instruction either, and a running
stream whose cursor holds no value, which no stream reaches, stops where the cursor is read. The names
of the faults are the model's (log entries 3 and 4). -/
def Obligations.EndedStreamsStop : Prop :=
  (∀ (s : State) (i : Instr), s.status = .finished →
    step s = .fault .streamFinished ∧ exec i s = .fault .streamFinished) ∧
  (∀ (s : State) (i : Instr) (e : ErrorRecord), s.status = .failed e →
    step s = .fault .streamFailed ∧ exec i s = .fault .streamFailed) ∧
  (∀ (s : State) (i : Instr), s.status = .running → s.cursor = none →
    step s = .fault .cursorUndefined ∧ exec i s = .fault .cursorUndefined) ∧
  ∀ s : State, StreamInv s → step s ≠ .fault .cursorUndefined

/-- R170: the numeric codes of the three error kinds (the spec's own, D7). -/
def Obligations.ErrorKindsHaveCodes : Prop :=
  ∀ e : ErrorRecord,
    (errorCode e = 1 ↔ ∃ offset pattern second, e = .unrecognizedOpcode offset pattern second) ∧
    (errorCode e = 2 ↔ ∃ shape offset, e = .truncatedInstruction shape offset) ∧
    (errorCode e = 3 ↔ ∃ offset shape, e = .unsupportedAddressingMode offset shape)

/-- R159: the amount of input consumed: one call's is the tuple's length, a finished stream's is `N
- START`, and a failed stream's is where the failing instruction starts, less `START`. The spec
derives the rule. -/
def Obligations.AmountOfInputConsumed : Prop :=
  (∀ (s s' : State) (t : DecodedInstr), step s = .next s' → s'.log = s.log ++ [t] →
    s'.consumed = s.consumed + t.length) ∧
  (∀ s : State, StreamInv s → s.status = .finished → s.consumed = s.size - s.start) ∧
  ∀ (s : State) (e : ErrorRecord), StreamInv s → s.status = .failed e →
    s.consumed = (s.log.map DecodedInstr.length).sum ∧
    decodeOne s.buf s.size s.policy (s.start + s.consumed) = .err e

/-- R176, R190: the host's restart one byte past a failing instruction starts a new stream over the
same buffer, and that stream meets the invariant. That a restart is a function on states is the
model's choice (log entry 9). -/
def Obligations.RestartAfterErrorStartsAStream : Prop :=
  ∀ (s : State) (e : ErrorRecord), StreamInv s → s.status = .failed e →
    let s' := s.restart (s.failingOffset + 1)
    StreamInv s' ∧ s'.runsAt (s.failingOffset + 1) ∧ s'.log = [] ∧
      (∀ a, s'.memRead a = s.memRead a)

/-! ## What a call depends on -/

/-- R77: the result of a call depends only on the bytes `buf[c .. min(c+5, N-1)]`, on `N` and on the
policy: two running streams that agree on these end their calls alike, whatever else differs. The
spec derives the rule. -/
def Obligations.DecodingIsContextFree : Prop :=
  ∀ (s₁ s₂ : State) (c : Nat), s₁.runsAt c → s₂.runsAt c → s₁.size = s₂.size →
    s₁.policy = s₂.policy →
    (∀ a, c ≤ a → a ≤ min (c + 5) (s₁.size - 1) → s₁.buf.read a = s₂.buf.read a) →
      (∃ t, step s₁ = .next (s₁.logTuple t) ∧ step s₂ = .next (s₂.logTuple t)) ∨
      (∃ e, step s₁ = .next (s₁.takeError e) ∧ step s₂ = .next (s₂.takeError e)) ∨
      (step s₁ = .next s₁.finish ∧ step s₂ = .next s₂.finish) ∨
      (step s₁ = .refused .cursorPastEnd ∧ step s₂ = .refused .cursorPastEnd)

/-- R154: a call that succeeds depends on no byte but those of the instruction, even where the
buffer's length differs; one that ends in `UnrecognizedOpcode` on the leading byte, and in the case
of shape `IRM` on the byte after it; one that ends in `TruncatedInstruction` on no byte from `N` on;
and none on a byte below the cursor. The spec derives the rule. -/
def Obligations.CallReadsOnlyItsBytes : Prop :=
  ∀ (s₁ s₂ : State) (c : Nat), s₁.runsAt c → s₂.runsAt c → s₁.policy = s₂.policy →
    (∀ t, step s₁ = .next (s₁.logTuple t) → c + t.length ≤ s₂.size →
      (∀ a, c ≤ a → a < c + t.length → s₁.buf.read a = s₂.buf.read a) →
        step s₂ = .next (s₂.logTuple t)) ∧
    (∀ p, step s₁ = .next (s₁.takeError (.unrecognizedOpcode c p none)) → c < s₂.size →
      s₁.buf.read c = s₂.buf.read c →
        step s₂ = .next (s₂.takeError (.unrecognizedOpcode c p none))) ∧
    (∀ p m, step s₁ = .next (s₁.takeError (.unrecognizedOpcode c p (some m))) →
      c + 1 < s₂.size → s₁.buf.read c = s₂.buf.read c →
      s₁.buf.read (c + 1) = s₂.buf.read (c + 1) →
        step s₂ = .next (s₂.takeError (.unrecognizedOpcode c p (some m)))) ∧
    (∀ shape n, step s₁ = .next (s₁.takeError (.truncatedInstruction shape n)) →
      s₁.size = s₂.size → (∀ a, c ≤ a → a < s₁.size → s₁.buf.read a = s₂.buf.read a) →
        step s₂ = .next (s₂.takeError (.truncatedInstruction shape n)))

/-- R7: in a realisation whose cursor has `CURSOR_BITS` bits with `2^CURSOR_BITS > N`, no cursor of a
stream wraps. The unbounded cursor is the model's (log entry 6). -/
def Obligations.CursorFitsARealisation : Prop :=
  ∀ (s s' : State) (c' bits : Nat), StreamInv s → s.size < 2 ^ bits → step s = .next s' →
    s'.cursor = some c' → c' < 2 ^ bits ∧ (BitVec.ofNat bits c').toNat = c'

/-- A word of the opcode table placed where the next step fetches is the instruction the step runs,
from every state with a canonical buffer and the default policy (log entry 10). -/
def Obligations.PlacedWordRunsNext : Prop :=
  ∀ (s : State) (nbits w : Nat) (i : Instr), s.buf.wf = true → s.policy = .reject →
    decodeTableWord nbits w = some i →
      step (s.withFetchWord nbits w) = exec i (s.withFetchWord nbits w) ∧
      ∃ t, step (s.withFetchWord nbits w) = .next ((s.withFetchWord nbits w).logTuple t)
end

