-- ==== Sys2Proof/Laws/State.lean ====
section
/-! SUPPORT. One lemma per field per update of the stream state. -/

namespace Sys2Proof.Machine

@[simp] theorem State.logTuple_buf (s : State) (t : DecodedInstr) :
    (s.logTuple t).buf = s.buf := rfl

@[simp] theorem State.logTuple_size (s : State) (t : DecodedInstr) :
    (s.logTuple t).size = s.size := rfl

@[simp] theorem State.logTuple_start (s : State) (t : DecodedInstr) :
    (s.logTuple t).start = s.start := rfl

@[simp] theorem State.logTuple_policy (s : State) (t : DecodedInstr) :
    (s.logTuple t).policy = s.policy := rfl

@[simp] theorem State.logTuple_cursor (s : State) (t : DecodedInstr) :
    (s.logTuple t).cursor = some (t.start + t.length) := rfl

@[simp] theorem State.logTuple_status (s : State) (t : DecodedInstr) :
    (s.logTuple t).status = s.status := rfl

@[simp] theorem State.logTuple_log (s : State) (t : DecodedInstr) :
    (s.logTuple t).log = s.log ++ [t] := rfl

@[simp] theorem State.finish_buf (s : State) :
    (s.finish).buf = s.buf := rfl

@[simp] theorem State.finish_size (s : State) :
    (s.finish).size = s.size := rfl

@[simp] theorem State.finish_start (s : State) :
    (s.finish).start = s.start := rfl

@[simp] theorem State.finish_policy (s : State) :
    (s.finish).policy = s.policy := rfl

@[simp] theorem State.finish_cursor (s : State) :
    (s.finish).cursor = s.cursor := rfl

@[simp] theorem State.finish_status (s : State) :
    (s.finish).status = .finished := rfl

@[simp] theorem State.finish_log (s : State) :
    (s.finish).log = s.log := rfl

@[simp] theorem State.takeError_buf (s : State) (e : ErrorRecord) :
    (s.takeError e).buf = s.buf := rfl

@[simp] theorem State.takeError_size (s : State) (e : ErrorRecord) :
    (s.takeError e).size = s.size := rfl

@[simp] theorem State.takeError_start (s : State) (e : ErrorRecord) :
    (s.takeError e).start = s.start := rfl

@[simp] theorem State.takeError_policy (s : State) (e : ErrorRecord) :
    (s.takeError e).policy = s.policy := rfl

@[simp] theorem State.takeError_cursor (s : State) (e : ErrorRecord) :
    (s.takeError e).cursor = none := rfl

@[simp] theorem State.takeError_status (s : State) (e : ErrorRecord) :
    (s.takeError e).status = .failed e := rfl

@[simp] theorem State.takeError_log (s : State) (e : ErrorRecord) :
    (s.takeError e).log = s.log := rfl

@[simp] theorem State.restart_buf (s : State) (n : Nat) :
    (s.restart n).buf = s.buf := rfl

@[simp] theorem State.restart_size (s : State) (n : Nat) :
    (s.restart n).size = s.size := rfl

@[simp] theorem State.restart_start (s : State) (n : Nat) :
    (s.restart n).start = n := rfl

@[simp] theorem State.restart_policy (s : State) (n : Nat) :
    (s.restart n).policy = s.policy := rfl

@[simp] theorem State.restart_cursor (s : State) (n : Nat) :
    (s.restart n).cursor = some n := rfl

@[simp] theorem State.restart_status (s : State) (n : Nat) :
    (s.restart n).status = .running := rfl

@[simp] theorem State.restart_log (s : State) (n : Nat) :
    (s.restart n).log = [] := rfl

@[simp] theorem State.boot_buf (bytes : List Byte) (n : Nat) (p : C6RegPolicy) :
    (State.boot bytes n p).buf = Buffer.ofBytesAt 0 bytes := rfl

@[simp] theorem State.boot_size (bytes : List Byte) (n : Nat) (p : C6RegPolicy) :
    (State.boot bytes n p).size = bytes.length := rfl

@[simp] theorem State.boot_start (bytes : List Byte) (n : Nat) (p : C6RegPolicy) :
    (State.boot bytes n p).start = n := rfl

@[simp] theorem State.boot_policy (bytes : List Byte) (n : Nat) (p : C6RegPolicy) :
    (State.boot bytes n p).policy = p := rfl

@[simp] theorem State.boot_cursor (bytes : List Byte) (n : Nat) (p : C6RegPolicy) :
    (State.boot bytes n p).cursor = some n := rfl

@[simp] theorem State.boot_status (bytes : List Byte) (n : Nat) (p : C6RegPolicy) :
    (State.boot bytes n p).status = .running := rfl

@[simp] theorem State.boot_log (bytes : List Byte) (n : Nat) (p : C6RegPolicy) :
    (State.boot bytes n p).log = [] := rfl

end Sys2Proof.Machine
end

