-- ==== Sys2Proof/Laws/Buffer.lean ====
section
/-! SUPPORT. The laws of the buffer: read after write, the canonical form, and that equal canonical
buffers are equal data. -/

namespace Sys2Proof.Machine

@[simp] theorem Buffer.read_nil (k : Nat) : Buffer.read [] k = Config.fillByte := rfl

theorem Buffer.read_cons (a : Nat) (b : Byte) (rest : Buffer) (k : Nat) :
    Buffer.read ((a, b) :: rest) k = if k = a then b else Buffer.read rest k := rfl

@[simp] theorem Buffer.risingFrom_cons (lo a : Nat) (b : Byte) (rest : Buffer) :
    Buffer.risingFrom lo ((a, b) :: rest) = true ↔
      lo ≤ a ∧ b ≠ Config.fillByte ∧ Buffer.risingFrom (a + 1) rest = true := by
  simp [Buffer.risingFrom, and_assoc]

theorem Buffer.risingFrom_mono {lo lo' : Nat} {m : Buffer} (h : m.risingFrom lo = true)
    (hl : lo' ≤ lo) : m.risingFrom lo' = true := by
  cases m with
  | nil => rfl
  | cons cell rest =>
    obtain ⟨a, b⟩ := cell
    rw [Buffer.risingFrom_cons] at h ⊢
    exact ⟨hl.trans h.1, h.2⟩

/-- Below the first offset of a canonical buffer everything reads as the fill byte. -/
theorem Buffer.read_below {lo k : Nat} {m : Buffer} (h : m.risingFrom lo = true) (hk : k < lo) :
    m.read k = Config.fillByte := by
  induction m generalizing lo with
  | nil => rfl
  | cons cell rest ih =>
    obtain ⟨a, b⟩ := cell
    rw [Buffer.risingFrom_cons] at h
    rw [Buffer.read_cons, if_neg (by omega), ih h.2.2 (by omega)]

theorem Buffer.read_write_same {lo : Nat} {m : Buffer} (h : m.risingFrom lo = true) (k : Nat)
    (v : Byte) : (m.write k v).read k = v := by
  induction m generalizing lo with
  | nil =>
    by_cases hv : v = Config.fillByte <;> simp [Buffer.write, hv, Buffer.read_cons]
  | cons cell rest ih =>
    obtain ⟨a, b⟩ := cell
    rw [Buffer.risingFrom_cons] at h
    rcases Nat.lt_trichotomy k a with hk | rfl | hk
    · by_cases hv : v = Config.fillByte
      · simp [Buffer.write, hk, hv, Buffer.read_cons, Nat.ne_of_lt hk,
          Buffer.read_below h.2.2 (show k < a + 1 by omega)]
      · simp [Buffer.write, hk, hv, Buffer.read_cons]
    · by_cases hv : v = Config.fillByte
      · simp [Buffer.write, hv, Buffer.read_below h.2.2 (Nat.lt_succ_self k)]
      · simp [Buffer.write, hv, Buffer.read_cons]
    · rw [Buffer.write, if_neg (by omega), if_neg (by omega), Buffer.read_cons, if_neg (by omega),
        ih h.2.2]

theorem Buffer.read_write_other (m : Buffer) {k j : Nat} (v : Byte) (hj : j ≠ k) :
    (m.write k v).read j = m.read j := by
  induction m with
  | nil => by_cases hv : v = Config.fillByte <;> simp [Buffer.write, hv, Buffer.read_cons, hj]
  | cons cell rest ih =>
    obtain ⟨a, b⟩ := cell
    simp only [Buffer.write]
    split_ifs with h1 h2 h3 h4 <;> simp_all [Buffer.read_cons]

theorem Buffer.risingFrom_write {lo : Nat} {m : Buffer} (h : m.risingFrom lo = true) {k : Nat}
    (hk : lo ≤ k) (v : Byte) : (m.write k v).risingFrom lo = true := by
  induction m generalizing lo with
  | nil => by_cases hv : v = Config.fillByte <;> simp [Buffer.write, hv, Buffer.risingFrom, hk]
  | cons cell rest ih =>
    obtain ⟨a, b⟩ := cell
    have h' := (Buffer.risingFrom_cons ..).1 h
    simp only [Buffer.write]
    split_ifs with h1 h2 h3 h4
    · exact h
    · exact (Buffer.risingFrom_cons ..).2
        ⟨hk, h2, (Buffer.risingFrom_cons ..).2 ⟨h1, h'.2⟩⟩
    · exact Buffer.risingFrom_mono h'.2.2 (by omega)
    · exact (Buffer.risingFrom_cons ..).2 ⟨hk, h4, h3 ▸ h'.2.2⟩
    · exact (Buffer.risingFrom_cons ..).2 ⟨h'.1, h'.2.1, ih h'.2.2 (by omega)⟩

/-- A write keeps the canonical form. -/
theorem Buffer.wf_write {m : Buffer} (h : m.wf = true) (k : Nat) (v : Byte) :
    (m.write k v).wf = true := Buffer.risingFrom_write h (Nat.zero_le k) v

theorem Buffer.wf_writeBytes {m : Buffer} (h : m.wf = true) (a : Nat) (bs : List Byte) :
    (m.writeBytes a bs).wf = true := by
  induction bs generalizing m a with
  | nil => exact h
  | cons b bs ih => exact ih (Buffer.wf_write h a b) (a + 1)

theorem Buffer.read_writeBytes_below (m : Buffer) (a : Nat) (bs : List Byte) {k : Nat} (hk : k < a) :
    (m.writeBytes a bs).read k = m.read k := by
  induction bs generalizing m a with
  | nil => rfl
  | cons b bs ih =>
    rw [Buffer.writeBytes, ih _ _ (by omega), Buffer.read_write_other _ _ (by omega)]

theorem Buffer.bytesAt_writeBytes {m : Buffer} (h : m.wf = true) (a : Nat) (bs : List Byte) :
    (m.writeBytes a bs).bytesAt a bs.length = bs := by
  induction bs generalizing m a with
  | nil => rfl
  | cons b bs ih =>
    rw [List.length_cons, Buffer.bytesAt, Buffer.writeBytes, ih (Buffer.wf_write h a b),
      Buffer.read_writeBytes_below _ _ _ (Nat.lt_succ_self a), Buffer.read_write_same h]

theorem Buffer.risingFrom_ofBytesAt (a : Nat) (bs : List Byte) :
    (Buffer.ofBytesAt a bs).risingFrom a = true := by
  induction bs generalizing a with
  | nil => rfl
  | cons b bs ih =>
    rw [Buffer.ofBytesAt]
    split_ifs with h
    · exact Buffer.risingFrom_mono (ih (a + 1)) (by omega)
    · exact (Buffer.risingFrom_cons ..).2 ⟨le_refl a, h, ih (a + 1)⟩

/-- The host's buffer has the canonical form. -/
theorem Buffer.wf_ofBytesAt (a : Nat) (bs : List Byte) : (Buffer.ofBytesAt a bs).wf = true :=
  Buffer.risingFrom_mono (Buffer.risingFrom_ofBytesAt a bs) (Nat.zero_le a)

theorem Buffer.read_ofBytesAt (a : Nat) (bs : List Byte) (k : Nat) :
    (Buffer.ofBytesAt a bs).read (a + k) = bs.getD k Config.fillByte := by
  induction bs generalizing a k with
  | nil => simp [Buffer.ofBytesAt]
  | cons b bs ih =>
    cases k with
    | zero =>
      rw [Buffer.ofBytesAt]
      split_ifs with h
      · simpa [h] using Buffer.read_below (Buffer.risingFrom_ofBytesAt (a + 1) bs)
          (Nat.lt_succ_self a)
      · simp [Buffer.read_cons]
    | succ k =>
      have := ih (a + 1) k
      rw [show a + 1 + k = a + (k + 1) by omega] at this
      rw [Buffer.ofBytesAt]
      split_ifs with h
      · simpa using this
      · rw [Buffer.read_cons, if_neg (by omega)]
        simpa using this

theorem Buffer.within_ofBytesAt (a : Nat) (bs : List Byte) :
    (Buffer.ofBytesAt a bs).within (a + bs.length) = true := by
  induction bs generalizing a with
  | nil => rfl
  | cons b bs ih =>
    have := ih (a + 1)
    rw [show a + 1 + bs.length = a + (b :: bs).length by simp; omega] at this
    rw [Buffer.ofBytesAt]
    split_ifs with h
    · exact this
    · rw [Buffer.within, List.all_cons, Bool.and_eq_true]
      exact ⟨by simp, this⟩

/-- Equal canonical buffers are equal data. -/
theorem Buffer.ext_of_read {m m' : Buffer} {lo : Nat} (h : m.risingFrom lo = true)
    (h' : m'.risingFrom lo = true) (hr : ∀ k, m.read k = m'.read k) : m = m' := by
  induction m generalizing m' lo with
  | nil =>
    cases m' with
    | nil => rfl
    | cons cell rest =>
      obtain ⟨a, b⟩ := cell
      have := hr a
      simp [Buffer.read_cons] at this
      exact absurd this.symm ((Buffer.risingFrom_cons ..).1 h').2.1
  | cons cell rest ih =>
    obtain ⟨a, b⟩ := cell
    have h1 := (Buffer.risingFrom_cons ..).1 h
    cases m' with
    | nil =>
      have := hr a
      simp [Buffer.read_cons] at this
      exact absurd this h1.2.1
    | cons cell' rest' =>
      obtain ⟨a', b'⟩ := cell'
      have h2 := (Buffer.risingFrom_cons ..).1 h'
      obtain rfl : a = a' := by
        rcases Nat.lt_trichotomy a a' with hl | he | hl
        · have := hr a
          rw [Buffer.read_cons, if_pos rfl, Buffer.read_cons, if_neg (by omega),
            Buffer.read_below h2.2.2 (by omega)] at this
          exact absurd this h1.2.1
        · exact he
        · have := hr a'
          rw [Buffer.read_cons, if_neg (by omega), Buffer.read_below h1.2.2 (by omega),
            Buffer.read_cons, if_pos rfl] at this
          exact absurd this.symm h2.2.1
      have hb := hr a
      simp only [Buffer.read_cons, if_true] at hb
      subst hb
      congr 1
      refine ih h1.2.2 h2.2.2 fun k => ?_
      by_cases hk : k = a
      · subst hk
        rw [Buffer.read_below h1.2.2 (Nat.lt_succ_self k),
          Buffer.read_below h2.2.2 (Nat.lt_succ_self k)]
      · simpa [Buffer.read_cons, hk] using hr k

@[simp] theorem Buffer.length_bytesAt (m : Buffer) (a n : Nat) : (m.bytesAt a n).length = n := by
  induction n generalizing a with
  | zero => rfl
  | succ n ih => simp [Buffer.bytesAt, ih]

theorem Buffer.bytesAt_add (m : Buffer) (a n k : Nat) :
    m.bytesAt a (n + k) = m.bytesAt a n ++ m.bytesAt (a + n) k := by
  induction n generalizing a with
  | zero => simp [Buffer.bytesAt]
  | succ n ih =>
    rw [show n + 1 + k = (n + k) + 1 by omega, Buffer.bytesAt, Buffer.bytesAt, ih,
      show a + 1 + n = a + (n + 1) by omega, List.cons_append]

theorem Buffer.bytesAt_ofBytesAt (a : Nat) (bs : List Byte) {n : Nat} (k : Nat)
    (hn : k + n ≤ bs.length) :
    (Buffer.ofBytesAt a bs).bytesAt (a + k) n = (bs.drop k).take n := by
  induction n generalizing k with
  | zero => simp [Buffer.bytesAt]
  | succ n ih =>
    have hk : k < bs.length := by omega
    rw [Buffer.bytesAt, Buffer.read_ofBytesAt, show a + k + 1 = a + (k + 1) by omega,
      ih (k + 1) (by omega), List.drop_eq_getElem_cons hk, List.take_succ_cons,
      List.getD_eq_getElem _ _ hk]

end Sys2Proof.Machine
end

