-- ==== Sys2Proof/Laws/Calls.lean ====
section
/-! SUPPORT. What each shared operation of a call can do, once. -/

namespace Sys2Proof.Machine

/-- A call of a running stream. -/
theorem beginCall_runsAt {s : State} {c : Nat} (h : s.runsAt c)
    (k : Nat → Host.Outcome State Fault Refusal) :
    beginCall s k =
      if s.size < c then .refused .cursorPastEnd
      else if c = s.size then .next s.finish
      else k c := by
  simp [beginCall, h.1, h.2]

theorem beginCall_inside {s : State} {c : Nat} (h : s.runsAt c) (hc : c < s.size)
    (k : Nat → Host.Outcome State Fault Refusal) : beginCall s k = k c := by
  rw [beginCall_runsAt h, if_neg (by omega), if_neg (by omega)]

/-- A call that gives a next state either finds the cursor at the end or runs its body there. -/
theorem beginCall_eq_next {s s' : State} {k : Nat → Host.Outcome State Fault Refusal}
    (h : beginCall s k = .next s') :
    ∃ c, s.runsAt c ∧ (c = s.size ∧ s' = s.finish ∨ c < s.size ∧ k c = .next s') := by
  unfold beginCall at h
  split at h
  · cases h
  · cases h
  · next hr =>
    split at h
    · cases h
    · next c hc =>
      refine ⟨c, ⟨hr, hc⟩, ?_⟩
      split_ifs at h with h1 h2
      · cases h; exact .inl ⟨h2, rfl⟩
      · exact .inr ⟨by omega, h⟩

/-- A call refuses only a cursor past the end, or where its body does. -/
theorem beginCall_eq_refused {s : State} {r : Refusal}
    {k : Nat → Host.Outcome State Fault Refusal} (h : beginCall s k = .refused r) :
    ∃ c, s.runsAt c ∧
      (s.size < c ∧ r = .cursorPastEnd ∨ c < s.size ∧ k c = .refused r) := by
  unfold beginCall at h
  split at h
  · cases h
  · cases h
  · next hr =>
    split at h
    · cases h
    · next c hc =>
      refine ⟨c, ⟨hr, hc⟩, ?_⟩
      split_ifs at h with h1 h2
      · cases h; exact .inl ⟨h1, rfl⟩
      · exact .inr ⟨by omega, h⟩

/-- The end of a call with a tuple: `TruncatedInstruction` or `Ok`. -/
theorem completeCall_cases (s : State) (t : DecodedInstr) :
    (s.size < t.start + t.length ∧
      completeCall s t = .next (s.takeError (.truncatedInstruction t.shape s.size))) ∨
    (t.start + t.length ≤ s.size ∧ completeCall s t = .next (s.logTuple t)) := by
  unfold completeCall
  split_ifs with h
  · exact .inl ⟨h, rfl⟩
  · exact .inr ⟨by omega, rfl⟩

theorem completeCall_fits {s : State} {t : DecodedInstr} (h : t.start + t.length ≤ s.size) :
    completeCall s t = .next (s.logTuple t) := if_neg (by omega)

/-- The end of a call whose bytes are no instruction: `Done` or an error taken, never the reserved
one (R173). -/
theorem reportError_cases (s : State) (c : Nat) (e : DecodeError) :
    reportError s c e = .next s.finish ∨
    (∃ p m, e = .unrecognizedOpcode p m ∧
      reportError s c e = .next (s.takeError (.unrecognizedOpcode c p m))) ∨
    (∃ shape, e = .truncated shape ∧
      reportError s c e = .next (s.takeError (.truncatedInstruction shape s.size))) := by
  cases e with
  | endOfBuffer => exact .inl rfl
  | unrecognizedOpcode p m => exact .inr (.inl ⟨p, m, rfl, rfl⟩)
  | truncated shape => exact .inr (.inr ⟨shape, rfl, rfl⟩)

end Sys2Proof.Machine
end

