-- ==== Sys2Proof/Laws/Decode.lean ====
section
/-! SUPPORT. The small lemmas of the decoder and encoder: bit fields, leading bytes, displacement
lengths, and what each field reader answers. -/

namespace Sys2Proof

/-! ## Bit fields -/

@[simp] theorem ModRM.toByte_ofByte (m : Byte) : (ModRM.ofByte m).toByte = m := by
  revert m; decide

@[simp] theorem ModRM.ofByte_toByte (x : ModRM) : ModRM.ofByte x.toByte = x := by
  obtain ⟨mod, reg, rm⟩ := x
  revert mod reg rm; decide

theorem getLsbD_le16 (lo hi : Byte) (i : Nat) :
    (le16 lo hi).getLsbD i = if i < 8 then lo.getLsbD i else hi.getLsbD (i - 8) := by
  simpa [le16, cond_eq_ite] using BitVec.getLsbD_append (x := hi) (y := lo) (i := i)

@[simp] theorem lowByte_le16 (lo hi : Byte) : lowByte (le16 lo hi) = lo := by
  apply BitVec.eq_of_getLsbD_eq
  intro i h
  simp [lowByte, getLsbD_le16, h]

@[simp] theorem highByte_le16 (lo hi : Byte) : highByte (le16 lo hi) = hi := by
  apply BitVec.eq_of_getLsbD_eq
  intro i h
  simp [highByte, getLsbD_le16, h]

@[simp] theorem le16_lowByte_highByte (v : Word) : le16 (lowByte v) (highByte v) = v := by
  apply BitVec.eq_of_getLsbD_eq
  intro i h
  rw [getLsbD_le16]
  split
  · next h8 => simp [lowByte, h8]
  · rw [highByte, BitVec.getLsbD_extractLsb', show 8 + (i - 8) = i by omega]
    simp [show i - 8 < 8 by omega]

@[simp] theorem wordBytes_le16 (lo hi : Byte) : wordBytes (le16 lo hi) = [lo, hi] := by
  simp [wordBytes]

@[simp] theorem length_wordBytes (v : Word) : (wordBytes v).length = 2 := rfl

/-! ## Leading bytes -/

@[simp] theorem classify_regMemLead (d : Direction) (w : Width) :
    classify (regMemLead d w) = .rm d w := by
  cases d <;> cases w <;> decide

@[simp] theorem classify_immRmLead (w : Width) : classify (immRmLead w) = .irm w := by
  cases w <;> decide

@[simp] theorem classify_immRegLead (w : Width) (code : RegCode) :
    classify (immRegLead w code) = .ir w code := by
  cases w <;> revert code <;> decide

@[simp] theorem classify_memAccLead (w : Width) : classify (memAccLead w) = .ma w := by
  cases w <;> decide

@[simp] theorem classify_accMemLead (w : Width) : classify (accMemLead w) = .am w := by
  cases w <;> decide

/-- The leading byte a verdict comes from; `none` where the verdict is `unrecognized`. -/
def Classified.lead : Classified → Option Byte
  | .rm d w => some (regMemLead d w)
  | .irm w => some (immRmLead w)
  | .ir w code => some (immRegLead w code)
  | .ma w => some (memAccLead w)
  | .am w => some (accMemLead w)
  | .unrecognized => none

/-- A verdict loses no bit of a recognized leading byte. -/
theorem lead_classify (b0 : Byte) :
    classify b0 = .unrecognized ∨ (classify b0).lead = some b0 := by
  revert b0; decide

theorem lead_of_classify {b0 : Byte} {k : Classified} (h : classify b0 = k)
    (hk : k ≠ .unrecognized) : k.lead = some b0 := by
  rcases lead_classify b0 with h' | h'
  · exact absurd (h ▸ h') hk
  · exact h ▸ h'

/-! ## Lengths -/

@[simp] theorem RmField.length_dispBytes (o : RmField) : o.dispBytes.length = o.dispLength := by
  rcases o with code | ⟨rm, disp⟩ | addr
  · rfl
  · cases disp <;> rfl
  · rfl

theorem RmField.dispLength_le (o : RmField) : o.dispLength ≤ 2 := by
  rcases o with code | ⟨rm, disp⟩ | addr
  · simp [RmField.dispLength]
  · cases disp <;> simp [RmField.dispLength]
  · simp [RmField.dispLength]

@[simp] theorem RmField.modrm_reg (reg : RegCode) (o : RmField) : (o.modrm reg).reg = reg := rfl

/-- R79 reads the displacement's length off the mod and rm fields. -/
theorem RmField.dispLength_modrm (reg : RegCode) (o : RmField) (h : o.wellFormed = true) :
    (o.modrm reg).dispLength = o.dispLength := by
  rcases o with code | ⟨rm, disp⟩ | addr
  · simp [RmField.modrm, RmField.mod, ModRM.dispLength, RmField.dispLength]
  · cases disp
    · have : rm ≠ 6#3 := by simpa [RmField.wellFormed, EA.wellFormed] using h
      simp [RmField.modrm, RmField.mod, RmField.rm, ModRM.dispLength, RmField.dispLength, this]
    · simp [RmField.modrm, RmField.mod, ModRM.dispLength, RmField.dispLength]
    · simp [RmField.modrm, RmField.mod, ModRM.dispLength, RmField.dispLength]
  · simp [RmField.modrm, RmField.mod, RmField.rm, ModRM.dispLength, RmField.dispLength]

@[simp] theorem Width.bytes_byte : Width.byte.bytes = 1 := rfl
@[simp] theorem Width.bytes_word : Width.word.bytes = 2 := rfl

/-! ## Field readers -/

@[simp] theorem takeByte_cons (shape : Shape) (b : Byte) (rest : List Byte) :
    takeByte shape (b :: rest) = .ok (b, rest) := rfl

@[simp] theorem takeByte_nil (shape : Shape) : takeByte shape [] = .error (.truncated shape) := rfl

@[simp] theorem takeWord_cons_cons (shape : Shape) (lo hi : Byte) (rest : List Byte) :
    takeWord shape (lo :: hi :: rest) = .ok (le16 lo hi, rest) := rfl

@[simp] theorem takeWord_nil (shape : Shape) : takeWord shape [] = .error (.truncated shape) := rfl

@[simp] theorem takeWord_one (shape : Shape) (b : Byte) :
    takeWord shape [b] = .error (.truncated shape) := rfl

@[simp] theorem takeWord_wordBytes_append (shape : Shape) (v : Word) (rest : List Byte) :
    takeWord shape (wordBytes v ++ rest) = .ok (v, rest) := by
  simp [wordBytes]

theorem takeByte_eq_ok {shape : Shape} {bs : List Byte} {r : Byte × List Byte}
    (h : takeByte shape bs = .ok r) : bs = r.1 :: r.2 := by
  cases bs with
  | nil => cases h
  | cons b rest => cases h; rfl

theorem takeWord_eq_ok {shape : Shape} {bs : List Byte} {r : Word × List Byte}
    (h : takeWord shape bs = .ok r) : bs = wordBytes r.1 ++ r.2 := by
  match bs, h with
  | lo :: hi :: rest, h => cases h; simp
  | [_], h => cases h
  | [], h => cases h

/-- R70: an r/m field reads back from its mod, rm and displacement bytes. -/
theorem decodeRmField_dispBytes (shape : Shape) (reg : RegCode) (o : RmField) (rest : List Byte)
    (h : o.wellFormed = true) :
    decodeRmField shape (o.modrm reg) (o.dispBytes ++ rest) = .ok (o, rest) := by
  rcases o with code | ⟨rm, disp⟩ | addr
  · rfl
  · cases disp
    · have : rm ≠ 6#3 := by simpa [RmField.wellFormed, EA.wellFormed] using h
      simp [decodeRmField, RmField.modrm, RmField.mod, RmField.rm, RmField.dispBytes, this]
    · rfl
    · simp [decodeRmField, RmField.modrm, RmField.mod, RmField.rm, RmField.dispBytes,
        bind, Except.bind]
  · simp [decodeRmField, RmField.modrm, RmField.mod, RmField.rm, RmField.dispBytes,
      bind, Except.bind]

/-- What a decoded r/m field says of the bytes it came from. -/
theorem decodeRmField_eq_ok {shape : Shape} {x : ModRM} {bs : List Byte} {o : RmField}
    {rest : List Byte} (h : decodeRmField shape x bs = .ok (o, rest)) :
    bs = o.dispBytes ++ rest ∧ o.modrm x.reg = x ∧ o.wellFormed = true := by
  obtain ⟨mod, reg, rm⟩ := x
  unfold decodeRmField at h
  split_ifs at h with h1 h2 h3 h4 <;> simp only [bind, Except.bind] at h <;> simp only at *
  · cases h; subst h1; exact ⟨rfl, rfl, rfl⟩
  · split at h
    · cases h
    · next v hv =>
      cases h; subst h2 h3
      exact ⟨takeWord_eq_ok hv, rfl, rfl⟩
  · cases h; subst h2
    exact ⟨rfl, rfl, by simpa [RmField.wellFormed, EA.wellFormed] using h3⟩
  · split at h
    · cases h
    · next v hv =>
      cases h; subst h4
      exact ⟨takeByte_eq_ok hv, rfl, rfl⟩
  · split at h
    · cases h
    · next v hv =>
      cases h
      obtain rfl : mod = 2 := by revert mod; decide
      exact ⟨takeWord_eq_ok hv, rfl, rfl⟩

end Sys2Proof
end

