-- ==== Sys2Proof/Laws/Exec.lean ====
section
/-! SUPPORT. The tuple an instruction logs, and what `exec` can do, once for all instructions. -/

namespace Sys2Proof.Machine

/-- The tuple of an instruction at cursor `c`, by its shape. -/
def tupleOf (c : Nat) : Instr → DecodedInstr
  | .movRm8R8 reg o => regMemTuple .regIsSource .byte reg o c
  | .movRm16R16 reg o => regMemTuple .regIsSource .word reg o c
  | .movR8Rm8 reg o => regMemTuple .regIsDest .byte reg o c
  | .movR16Rm16 reg o => regMemTuple .regIsDest .word reg o c
  | .movRm8Imm8 reg o v => immRmTuple .byte reg o (.imm8 v) c
  | .movRm16Imm16 reg o v => immRmTuple .word reg o (.imm16 v) c
  | .movR8Imm8 code v => immRegTuple .byte code (.imm8 v) c
  | .movR16Imm16 code v => immRegTuple .word code (.imm16 v) c
  | .movAlMoffs8 addr => memAccTuple .byte addr c
  | .movAxMoffs16 addr => memAccTuple .word addr c
  | .movMoffs8Al addr => accMemTuple .byte addr c
  | .movMoffs16Ax addr => accMemTuple .word addr c

@[simp] theorem tupleOf_start (c : Nat) (i : Instr) : (tupleOf c i).start = c := by
  cases i <;> rfl

theorem two_le_tupleOf_length (c : Nat) (i : Instr) : 2 ≤ (tupleOf c i).length := by
  cases i <;> simp [tupleOf, regMemTuple, immRmTuple, immRegTuple, memAccTuple, accMemTuple]
  omega

theorem tupleOf_length_le (c : Nat) (i : Instr) : (tupleOf c i).length ≤ 6 := by
  cases i with
  | movRm8R8 _ o
  | movRm16R16 _ o
  | movR8Rm8 _ o
  | movR16Rm16 _ o
  | movRm8Imm8 _ o _
  | movRm16Imm16 _ o _ =>
    have := o.dispLength_le
    simp [tupleOf, regMemTuple, immRmTuple]
    omega
  | _ => simp [tupleOf, immRegTuple, memAccTuple, accMemTuple]

theorem length_encode (c : Nat) (i : Instr) : (encode i).length = (tupleOf c i).length := by
  cases i <;> simp [encode, encodeRegMem, encodeImmRm, tupleOf, regMemTuple, immRmTuple,
    immRegTuple, memAccTuple, accMemTuple] <;> omega

@[simp] theorem operandBytes_reg (code : RegCode) (w : Width) :
    operandBytes (.reg code w) = [] := rfl

@[simp] theorem operandBytes_direct (addr : Word) (w : Width) :
    operandBytes (.mem (.direct addr) w) = wordBytes addr := rfl

@[simp] theorem operandBytes_imm8 (v : Byte) : operandBytes (.imm (.imm8 v)) = [v] := rfl

@[simp] theorem operandBytes_imm16 (v : Word) : operandBytes (.imm (.imm16 v)) = wordBytes v := rfl

@[simp] theorem operandBytes_rmOperand (w : Width) (o : RmField) :
    operandBytes (rmOperand w o) = o.dispBytes := by
  rcases o with code | ⟨rm, disp⟩ | addr
  · rfl
  · cases disp <;> rfl
  · rfl

/-- R83 on one instruction: its tuple encodes to its bytes. -/
theorem encodeTuple_tupleOf (c : Nat) (i : Instr) : encodeTuple (tupleOf c i) = encode i := by
  cases i <;> simp [encodeTuple, tupleOf, regMemTuple, immRmTuple, immRegTuple, memAccTuple,
    accMemTuple, tupleLead, encode, encodeRegMem, encodeImmRm, accumulator]

@[simp] theorem operandProduced_reg (w : Width) (code : RegCode) :
    operandProduced w (.reg code w) = true := by
  simp [operandProduced, operandWidth]

@[simp] theorem operandProduced_mem (w : Width) (ea : EA) :
    operandProduced w (.mem ea w) = eaProduced ea := by
  simp [operandProduced, operandWidth]

@[simp] theorem operandProduced_imm8 (v : Byte) :
    operandProduced .byte (.imm (.imm8 v)) = true := by
  simp [operandProduced, operandWidth]

@[simp] theorem operandProduced_imm16 (v : Word) :
    operandProduced .word (.imm (.imm16 v)) = true := by
  simp [operandProduced, operandWidth]

/-- The produced addresses are the well-formed ones. -/
theorem eaProduced_eq_wellFormed (ea : EA) : eaProduced ea = ea.wellFormed := by
  rcases ea with ⟨rm, disp⟩ | addr
  · cases disp
    · revert rm; decide
    · unfold eaProduced; split <;> simp_all [EA.wellFormed]
    · unfold eaProduced; split <;> simp_all [EA.wellFormed]
  · rfl

theorem operandProduced_rmOperand (w : Width) {o : RmField} (h : o.wellFormed = true) :
    operandProduced w (rmOperand w o) = true := by
  cases o with
  | reg code => exact operandProduced_reg w code
  | mem ea => rw [rmOperand, operandProduced_mem, eaProduced_eq_wellFormed]; exact h

@[simp] theorem operandIsImm_reg (code : RegCode) (w : Width) :
    operandIsImm (.reg code w) = false := rfl

@[simp] theorem operandIsImm_mem (ea : EA) (w : Width) : operandIsImm (.mem ea w) = false := rfl

@[simp] theorem operandIsImm_rmOperand (w : Width) (o : RmField) :
    operandIsImm (rmOperand w o) = false := by
  cases o <;> rfl

/-- The tuple of a well-formed instruction has the form of R26 to R30. -/
theorem tupleOf_wf {policy : C6RegPolicy} (c : Nat) {i : Instr} (h : i.wellFormed policy = true) :
    (tupleOf c i).wf = true := by
  have h1 := two_le_tupleOf_length c i
  have h2 := tupleOf_length_le c i
  simp only [DecodedInstr.wf, h1, h2, decide_true, Bool.true_and, Bool.and_true]
  cases i with
  | movRm8R8 _ o
  | movRm16R16 _ o
  | movR8Rm8 _ o
  | movR16Rm16 _ o => simp [tupleOf, regMemTuple, operandProduced_rmOperand _ h]
  | movRm8Imm8 _ o _
  | movRm16Imm16 _ o _ =>
    simp only [Instr.wellFormed, Bool.and_eq_true] at h
    simp [tupleOf, immRmTuple, operandProduced_rmOperand _ h.1]
  | movR8Imm8 _ _
  | movR16Imm16 _ _ => simp [tupleOf, immRegTuple]
  | movAlMoffs8 _
  | movAxMoffs16 _
  | movMoffs8Al _
  | movMoffs16Ax _ =>
    simp [tupleOf, memAccTuple, accMemTuple, accumulator, eaProduced]

theorem accepts_of_wellFormed {policy : C6RegPolicy} {reg : RegCode}
    (h : (reg == 0 || policy == .ignore) = true) : policy.accepts reg = true := by
  cases policy <;> simp_all [C6RegPolicy.accepts]

/-- A well-formed instruction whose bytes all lie below `N` is logged (R153). -/
theorem exec_fits {s : State} {c : Nat} {i : Instr} (h : s.runsAt c)
    (hi : i.wellFormed s.policy = true) (hl : c + (tupleOf c i).length ≤ s.size) :
    exec i s = .next (s.logTuple (tupleOf c i)) := by
  have h2 := two_le_tupleOf_length c i
  cases i with
  | movRm8Imm8 reg o v | movRm16Imm16 reg o v =>
    simp only [Instr.wellFormed, Bool.and_eq_true] at hi
    simp only [exec, execMovRm8Imm8, execMovRm16Imm16, immRmCall]
    rw [beginCall_inside h (by omega), if_neg (by omega), if_pos (accepts_of_wellFormed hi.2)]
    exact completeCall_fits hl
  | _ =>
    refine (beginCall_inside h (by omega) _).trans (completeCall_fits ?_)
    exact hl

/-- Whatever `exec` does when it gives a next state: the call found the end, took an error that is
not the reserved one, or logged the instruction's tuple. -/
theorem exec_eq_next {i : Instr} {s s' : State} (h : exec i s = .next s') :
    ∃ c, s.runsAt c ∧
      (c = s.size ∧ s' = s.finish ∨
       (∃ p m, c < s.size ∧ s' = s.takeError (.unrecognizedOpcode c p m)) ∨
       (∃ shape, c < s.size ∧ s' = s.takeError (.truncatedInstruction shape s.size)) ∨
       c + (tupleOf c i).length ≤ s.size ∧ s' = s.logTuple (tupleOf c i)) := by
  have complete : ∀ c, c < s.size → completeCall s (tupleOf c i) = .next s' →
      (∃ shape, c < s.size ∧ s' = s.takeError (.truncatedInstruction shape s.size)) ∨
       c + (tupleOf c i).length ≤ s.size ∧ s' = s.logTuple (tupleOf c i) := by
    intro c hc hk
    rcases completeCall_cases s (tupleOf c i) with ⟨_, he⟩ | ⟨hl, he⟩ <;> rw [he] at hk <;>
      cases hk
    · exact .inl ⟨_, hc, rfl⟩
    · exact .inr ⟨by simpa using hl, rfl⟩
  cases i with
  | movRm8Imm8 reg o v | movRm16Imm16 reg o v =>
    obtain ⟨c, hr, hc⟩ := beginCall_eq_next h
    refine ⟨c, hr, ?_⟩
    rcases hc with hc | ⟨hc, hk⟩
    · exact .inl hc
    · split_ifs at hk with h1 h2
      · cases hk; exact .inr (.inr (.inl ⟨_, hc, rfl⟩))
      · exact .inr (.inr (complete c hc hk))
      · cases hk; exact .inr (.inl ⟨_, _, hc, rfl⟩)
  | _ =>
    obtain ⟨c, hr, hc⟩ := beginCall_eq_next h
    exact ⟨c, hr, hc.imp id fun hk => .inr (complete c hk.1 hk.2)⟩

end Sys2Proof.Machine
end

