-- ==== Sys2Proof/Laws/Fetch.lean ====
section
/-! SUPPORT. What the fetch gives the decoder: the bytes from an offset on, ending at `N`, and what a
field reader answers on them (the spec's `need` and `MemRead`). -/

namespace Sys2Proof.Machine

theorem State.memRead_lt {s : State} {a : Nat} (h : a < s.size) :
    s.memRead a = some (s.buf.read a) := by
  simp [State.memRead, h]

theorem State.memRead_ge {s : State} {a : Nat} (h : s.size ≤ a) : s.memRead a = none := by
  simp [State.memRead, Nat.not_lt.2 h]

theorem State.fetch_lt {s : State} {a : Nat} (n : Nat) (h : a < s.size) :
    s.fetch a (n + 1) = s.buf.read a :: s.fetch (a + 1) n := by
  simp [State.fetch, State.memRead_lt h]

theorem State.fetch_ge {s : State} {a : Nat} (n : Nat) (h : s.size ≤ a) : s.fetch a n = [] := by
  cases n with
  | zero => rfl
  | succ n => simp [State.fetch, State.memRead_ge h]

theorem takeByte_fetch (s : State) (shape : Shape) (a n : Nat) :
    takeByte shape (s.fetch a (n + 1)) =
      if s.size < a + 1 then .error (.truncated shape)
      else .ok (memRead1 s.buf a, s.fetch (a + 1) n) := by
  by_cases h : a < s.size
  · rw [State.fetch_lt n h, if_neg (by omega)]; rfl
  · rw [State.fetch_ge _ (by omega), if_pos (by omega)]; rfl

theorem takeWord_fetch (s : State) (shape : Shape) (a n : Nat) :
    takeWord shape (s.fetch a (n + 2)) =
      if s.size < a + 2 then .error (.truncated shape)
      else .ok (memRead2 s.buf a, s.fetch (a + 2) n) := by
  by_cases h : a < s.size
  · by_cases h' : a + 1 < s.size
    · rw [State.fetch_lt _ h, State.fetch_lt _ h', if_neg (by omega)]; rfl
    · rw [State.fetch_lt _ h, State.fetch_ge _ (by omega), if_pos (by omega)]; rfl
  · rw [State.fetch_ge _ (by omega), if_pos (by omega)]; rfl

/-- The fetch starts with the bytes of the buffer that lie below `N`. -/
theorem State.fetch_eq_append {s : State} {a k n : Nat} (hk : k ≤ n) (h : a + k ≤ s.size) :
    s.fetch a n = s.buf.bytesAt a k ++ s.fetch (a + k) (n - k) := by
  induction k generalizing a n with
  | zero => rfl
  | succ k ih =>
    obtain ⟨n, rfl⟩ : ∃ m, n = m + 1 := ⟨n - 1, by omega⟩
    rw [State.fetch_lt n (by omega), Buffer.bytesAt, ih (by omega) (by omega),
      show a + 1 + k = a + (k + 1) by omega, show n + 1 - (k + 1) = n - k by omega,
      List.cons_append]

/-- A prefix of the fetch is the bytes of the buffer, all of them below `N`. -/
theorem State.bytesAt_of_fetch {s : State} {a n : Nat} {bs rest : List Byte}
    (h : s.fetch a n = bs ++ rest) (ha : a ≤ s.size) :
    s.buf.bytesAt a bs.length = bs ∧ a + bs.length ≤ s.size := by
  induction bs generalizing a n with
  | nil => exact ⟨rfl, by simpa using ha⟩
  | cons b bs ih =>
    cases n with
    | zero => cases h
    | succ n =>
      by_cases hl : a < s.size
      · rw [State.fetch_lt n hl, List.cons_append] at h
        obtain ⟨rfl, h'⟩ := List.cons.inj h
        obtain ⟨h1, h2⟩ := ih h' (by omega)
        exact ⟨by rw [List.length_cons, Buffer.bytesAt, h1], by rw [List.length_cons]; omega⟩
      · rw [State.fetch_ge _ (by omega)] at h
        cases h

end Sys2Proof.Machine
end

