-- ==== Sys2Proof/Laws/DecodeCall.lean ====
section
/-! SUPPORT. The field readers of the decoder on fetched bytes beside those of `DecodeOne` on offsets:
each pair succeeds together with the same field, or fails together with `TruncatedInstruction`. -/

namespace Sys2Proof.Machine

theorem need_error {n p k : Nat} (shape : Shape) (h : n < p + k) :
    need n p k shape = .error (.truncatedInstruction shape n) := if_pos h

theorem need_ok {n p k : Nat} (shape : Shape) (h : p + k ≤ n) : need n p k shape = .ok () :=
  if_neg (by omega)

theorem takeByte_fetch_ok {s : State} (shape : Shape) {a : Nat} (n : Nat) (h : a + 1 ≤ s.size) :
    takeByte shape (s.fetch a (n + 1)) = .ok (memRead1 s.buf a, s.fetch (a + 1) n) := by
  rw [takeByte_fetch, if_neg (by omega)]

theorem takeByte_fetch_error {s : State} (shape : Shape) {a : Nat} (n : Nat) (h : s.size < a + 1) :
    takeByte shape (s.fetch a (n + 1)) = .error (.truncated shape) := by
  rw [takeByte_fetch, if_pos h]

theorem takeWord_fetch_ok {s : State} (shape : Shape) {a : Nat} (n : Nat) (h : a + 2 ≤ s.size) :
    takeWord shape (s.fetch a (n + 2)) = .ok (memRead2 s.buf a, s.fetch (a + 2) n) := by
  rw [takeWord_fetch, if_neg (by omega)]

theorem takeWord_fetch_error {s : State} (shape : Shape) {a : Nat} (n : Nat) (h : s.size < a + 2) :
    takeWord shape (s.fetch a (n + 2)) = .error (.truncated shape) := by
  rw [takeWord_fetch, if_pos h]

/-- R70 on fetched bytes and on offsets. -/
theorem decodeRmField_fetch (s : State) (shape : Shape) (x : ModRM) (w : Width) (p n : Nat) :
    (∃ o, decodeRmField shape x (s.fetch p (n + 2)) =
          .ok (o, s.fetch (p + o.dispLength) (n + 2 - o.dispLength)) ∧
        decodeRMAt s.buf s.size x w shape p = .ok (rmOperand w o, p + o.dispLength) ∧
        o.wellFormed = true ∧ o.modrm x.reg = x ∧ o.dispLength = x.dispLength ∧
        (o.dispLength = 0 ∨ p + o.dispLength ≤ s.size)) ∨
    (decodeRmField shape x (s.fetch p (n + 2)) = .error (.truncated shape) ∧
      decodeRMAt s.buf s.size x w shape p = .error (.truncatedInstruction shape s.size) ∧
      s.size < p + x.dispLength) := by
  obtain ⟨mod, reg, rm⟩ := x
  have hmod : mod = 0 ∨ mod = 1 ∨ mod = 2 ∨ mod = 3 := by revert mod; decide
  rcases hmod with rfl | rfl | rfl | rfl
  · by_cases hrm : rm = 6#3
    · subst hrm
      by_cases h : s.size < p + 2
      · refine .inr ⟨?_, ?_, ?_⟩
        · simp [decodeRmField, takeWord_fetch_error shape n h, bind, Except.bind]
        · simp [decodeRMAt, need_error shape h, bind, Except.bind]
        · simpa [ModRM.dispLength] using h
      · refine .inl ⟨.mem (.direct (memRead2 s.buf p)), ?_, ?_, rfl, rfl, rfl, .inr (by
          simp only [RmField.dispLength]; omega)⟩
        · simp [decodeRmField, takeWord_fetch_ok shape n (Nat.not_lt.1 h), bind, Except.bind,
            RmField.dispLength]
        · simp [decodeRMAt, need_ok shape (Nat.not_lt.1 h), bind, Except.bind, rmOperand,
            RmField.dispLength]
    · refine .inl ⟨.mem (.based rm .noDisp), ?_, ?_, ?_, rfl, ?_, .inl rfl⟩
      · simp [decodeRmField, hrm, RmField.dispLength]
      · simp [decodeRMAt, hrm, rmOperand, RmField.dispLength]
      · simpa [RmField.wellFormed, EA.wellFormed] using hrm
      · simp [RmField.dispLength, ModRM.dispLength, hrm]
  · by_cases h : s.size < p + 1
    · refine .inr ⟨?_, ?_, ?_⟩
      · simp [decodeRmField, takeByte_fetch_error shape (n + 1) h, bind, Except.bind]
      · simp [decodeRMAt, need_error shape h, bind, Except.bind]
      · simpa [ModRM.dispLength] using h
    · refine .inl ⟨.mem (.based rm (.disp8 (memRead1 s.buf p))), ?_, ?_, rfl, rfl, rfl, .inr (by
        simp only [RmField.dispLength]; omega)⟩
      · simp [decodeRmField, takeByte_fetch_ok shape (n + 1) (Nat.not_lt.1 h), bind, Except.bind,
          RmField.dispLength]
      · simp [decodeRMAt, need_ok shape (Nat.not_lt.1 h), bind, Except.bind, rmOperand,
          RmField.dispLength]
  · by_cases h : s.size < p + 2
    · refine .inr ⟨?_, ?_, ?_⟩
      · simp [decodeRmField, takeWord_fetch_error shape n h, bind, Except.bind]
      · simp [decodeRMAt, need_error shape h, bind, Except.bind]
      · simpa [ModRM.dispLength] using h
    · refine .inl ⟨.mem (.based rm (.disp16 (memRead2 s.buf p))), ?_, ?_, rfl, rfl, rfl, .inr (by
        simp only [RmField.dispLength]; omega)⟩
      · simp [decodeRmField, takeWord_fetch_ok shape n (Nat.not_lt.1 h), bind, Except.bind,
          RmField.dispLength]
      · simp [decodeRMAt, need_ok shape (Nat.not_lt.1 h), bind, Except.bind, rmOperand,
          RmField.dispLength]
  · refine .inl ⟨.reg rm, rfl, rfl, rfl, rfl, rfl, .inl rfl⟩

end Sys2Proof.Machine
end

