-- ==== Sys2Proof/Laws/PerInstr.lean ====
section
/-! SUPPORT. Statements about the instructions as syntax, one lemma per constructor. -/

namespace Sys2Proof.Laws

/-- R78: the encoding of an instruction is as long as the row says, 2 to 6 bytes. -/
def EncodedLength.Statement (i : Instr) : Prop :=
  2 ≤ (encode i).length ∧ (encode i).length ≤ 6

theorem EncodedLength.all (i : Instr) : EncodedLength.Statement i := by
  rw [EncodedLength.Statement, Machine.length_encode 0]
  exact ⟨Machine.two_le_tupleOf_length 0 i, Machine.tupleOf_length_le 0 i⟩

/-- R61: the leading byte is one of the table's 26. -/
def LeadingByte.Statement (i : Instr) : Prop :=
  ∃ b0 rest, encode i = b0 :: rest ∧ classify b0 ≠ .unrecognized

theorem EncodedLength.movRm8R8 (reg : RegCode) (rm : RmField) :
    EncodedLength.Statement (.movRm8R8 reg rm) := EncodedLength.all _

theorem EncodedLength.movRm16R16 (reg : RegCode) (rm : RmField) :
    EncodedLength.Statement (.movRm16R16 reg rm) := EncodedLength.all _

theorem EncodedLength.movR8Rm8 (reg : RegCode) (rm : RmField) :
    EncodedLength.Statement (.movR8Rm8 reg rm) := EncodedLength.all _

theorem EncodedLength.movR16Rm16 (reg : RegCode) (rm : RmField) :
    EncodedLength.Statement (.movR16Rm16 reg rm) := EncodedLength.all _

theorem EncodedLength.movRm8Imm8 (reg : RegCode) (rm : RmField) (imm : Byte) :
    EncodedLength.Statement (.movRm8Imm8 reg rm imm) := EncodedLength.all _

theorem EncodedLength.movRm16Imm16 (reg : RegCode) (rm : RmField) (imm : Word) :
    EncodedLength.Statement (.movRm16Imm16 reg rm imm) := EncodedLength.all _

theorem EncodedLength.movR8Imm8 (code : RegCode) (imm : Byte) :
    EncodedLength.Statement (.movR8Imm8 code imm) := EncodedLength.all _

theorem EncodedLength.movR16Imm16 (code : RegCode) (imm : Word) :
    EncodedLength.Statement (.movR16Imm16 code imm) := EncodedLength.all _

theorem EncodedLength.movAlMoffs8 (addr : Word) :
    EncodedLength.Statement (.movAlMoffs8 addr) := EncodedLength.all _

theorem EncodedLength.movAxMoffs16 (addr : Word) :
    EncodedLength.Statement (.movAxMoffs16 addr) := EncodedLength.all _

theorem EncodedLength.movMoffs8Al (addr : Word) :
    EncodedLength.Statement (.movMoffs8Al addr) := EncodedLength.all _

theorem EncodedLength.movMoffs16Ax (addr : Word) :
    EncodedLength.Statement (.movMoffs16Ax addr) := EncodedLength.all _

theorem LeadingByte.movRm8R8 (reg : RegCode) (rm : RmField) :
    LeadingByte.Statement (.movRm8R8 reg rm) := ⟨_, _, rfl, by simp⟩

theorem LeadingByte.movRm16R16 (reg : RegCode) (rm : RmField) :
    LeadingByte.Statement (.movRm16R16 reg rm) := ⟨_, _, rfl, by simp⟩

theorem LeadingByte.movR8Rm8 (reg : RegCode) (rm : RmField) :
    LeadingByte.Statement (.movR8Rm8 reg rm) := ⟨_, _, rfl, by simp⟩

theorem LeadingByte.movR16Rm16 (reg : RegCode) (rm : RmField) :
    LeadingByte.Statement (.movR16Rm16 reg rm) := ⟨_, _, rfl, by simp⟩

theorem LeadingByte.movRm8Imm8 (reg : RegCode) (rm : RmField) (imm : Byte) :
    LeadingByte.Statement (.movRm8Imm8 reg rm imm) := ⟨_, _, rfl, by simp⟩

theorem LeadingByte.movRm16Imm16 (reg : RegCode) (rm : RmField) (imm : Word) :
    LeadingByte.Statement (.movRm16Imm16 reg rm imm) := ⟨_, _, rfl, by simp⟩

theorem LeadingByte.movR8Imm8 (code : RegCode) (imm : Byte) :
    LeadingByte.Statement (.movR8Imm8 code imm) := ⟨_, _, rfl, by simp⟩

theorem LeadingByte.movR16Imm16 (code : RegCode) (imm : Word) :
    LeadingByte.Statement (.movR16Imm16 code imm) := ⟨_, _, rfl, by simp⟩

theorem LeadingByte.movAlMoffs8 (addr : Word) :
    LeadingByte.Statement (.movAlMoffs8 addr) := ⟨_, _, rfl, by simp⟩

theorem LeadingByte.movAxMoffs16 (addr : Word) :
    LeadingByte.Statement (.movAxMoffs16 addr) := ⟨_, _, rfl, by simp⟩

theorem LeadingByte.movMoffs8Al (addr : Word) :
    LeadingByte.Statement (.movMoffs8Al addr) := ⟨_, _, rfl, by simp⟩

theorem LeadingByte.movMoffs16Ax (addr : Word) :
    LeadingByte.Statement (.movMoffs16Ax addr) := ⟨_, _, rfl, by simp⟩

end Sys2Proof.Laws
end

