-- ==== Sys2Proof/Laws/Run.lean ====
section
/-! SUPPORT. Runs of several steps (`Host.Core.run` at `Sys2Proof.core`), one step at a time. -/

namespace Sys2Proof.Machine

theorem run_zero (s : State) : Host.Core.run Sys2Proof.core 0 s = .next s := rfl

theorem run_succ_of_next {k : Nat} {s s' : State} (h : step s = .next s') :
    Host.Core.run Sys2Proof.core (k + 1) s = Host.Core.run Sys2Proof.core k s' := by
  have general : ∀ (M : Host.Core) (a b : M.State), M.step a = .next b →
      M.run (k + 1) a = M.run k b := fun M a b hab => by simp [Host.Core.run, hab]
  exact general Sys2Proof.core s s' h

theorem run_succ_eq_next {k : Nat} {s t : State}
    (h : Host.Core.run Sys2Proof.core (k + 1) s = .next t) :
    ∃ s', step s = .next s' ∧ Host.Core.run Sys2Proof.core k s' = .next t := by
  have general : ∀ (M : Host.Core) (a c : M.State), M.run (k + 1) a = .next c →
      ∃ b, M.step a = .next b ∧ M.run k b = .next c := fun M a c hac => by
    simp only [Host.Core.run] at hac
    split at hac
    · exact ⟨_, ‹_›, hac⟩
    · cases hac
    · cases hac
  exact general Sys2Proof.core s t h

/-- A run of `k + j` steps that gives a state passes through the state after `k` of them. -/
theorem run_add_eq_next {k j : Nat} {s t : State}
    (h : Host.Core.run Sys2Proof.core (k + j) s = .next t) :
    ∃ s', Host.Core.run Sys2Proof.core k s = .next s' ∧
      Host.Core.run Sys2Proof.core j s' = .next t := by
  induction k generalizing s with
  | zero => exact ⟨s, rfl, by rwa [Nat.zero_add] at h⟩
  | succ k ih =>
    rw [Nat.succ_add] at h
    obtain ⟨s₁, h1, h2⟩ := run_succ_eq_next h
    obtain ⟨s', h3, h4⟩ := ih h2
    exact ⟨s', (run_succ_of_next h1).trans h3, h4⟩

/-- What every step keeps, every run keeps. -/
theorem run_keeps (P : State → Prop) (keeps : ∀ s s' : State, P s → step s = .next s' → P s')
    {k : Nat} {s t : State} (hs : P s) (h : Host.Core.run Sys2Proof.core k s = .next t) : P t := by
  induction k generalizing s with
  | zero => rw [run_zero] at h; cases h; exact hs
  | succ k ih =>
    obtain ⟨s', h1, h2⟩ := run_succ_eq_next h
    exact ih (keeps s s' hs h1) h2

end Sys2Proof.Machine
end

