-- ==== Sys2Proof/Tests/Slice0.lean ====
section
/-! SUPPORT. The model's own tests: expected results from spec/95_test_vectors.md (S and V numbers) and
from the worked examples of the rules, and one witness for the hypotheses of each statement. -/

namespace Sys2Proof.Tests

open Sys2Proof Sys2Proof.Machine

/-- A stream over these bytes from offset 0 under the default policy. -/
def stream (bytes : List Byte) : State := State.boot bytes 0 .reject

/-- A running stream over `bytes` with one tuple logged and the cursor after it. -/
def logged (bytes : List Byte) (t : DecodedInstr) : State := (stream bytes).logTuple t

/-! ## Well-formed instructions: one ill-formed term for each check -/

theorem test_wf_refuses_bp_without_displacement :
    (∀ i ∈ [Instr.movRm8R8 0 (.mem (.based 0b110 .noDisp)),
      .movRm16R16 0 (.mem (.based 0b110 .noDisp)), .movR8Rm8 0 (.mem (.based 0b110 .noDisp)),
      .movR16Rm16 0 (.mem (.based 0b110 .noDisp)), .movRm8Imm8 0 (.mem (.based 0b110 .noDisp)) 7,
      .movRm16Imm16 0 (.mem (.based 0b110 .noDisp)) 7],
      i.wellFormed .reject = false ∧ i.wellFormed .ignore = false) := by decide

theorem test_wf_refuses_opcode_extension_under_reject :
    (Instr.movRm8Imm8 0b001 (.reg 0) 5).wellFormed .reject = false ∧
    (Instr.movRm16Imm16 0b111 (.reg 0) 5).wellFormed .reject = false ∧
    (Instr.movRm8Imm8 0b001 (.reg 0) 5).wellFormed .ignore = true ∧
    (Instr.movRm16Imm16 0b111 (.reg 0) 5).wellFormed .ignore = true := by decide

theorem test_wf_accepts_bp_with_zero_displacement :
    (Instr.movR16Rm16 0b010 (.mem (.based 0b110 (.disp8 0)))).wellFormed .reject = true ∧
    (Instr.movR16Rm16 0b010 (.mem (.based 0b110 (.disp16 0)))).wellFormed .reject = true ∧
    (Instr.movR16Rm16 0b010 (.mem (.direct 0))).wellFormed .reject = true := by decide

/-! ## Decoding: words written out from the formats of R61, R64 and R75, one for each constructor -/

/-- V2: `88 E5`. -/
theorem test_decode_movRm8R8 :
    decode .reject [0b10001000, 0b11_100_101] = .ok (.movRm8R8 0b100 (.reg 0b101), []) ∧
    encode (.movRm8R8 0b100 (.reg 0b101)) = [0x88, 0xE5] := ⟨rfl, rfl⟩

/-- S1: `89 DE`, source bx, destination si. -/
theorem test_decode_movRm16R16 :
    decode .reject [0b10001001, 0b11_011_110] = .ok (.movRm16R16 0b011 (.reg 0b110), []) ∧
    encode (.movRm16R16 0b011 (.reg 0b110)) = [0x89, 0xDE] := ⟨rfl, rfl⟩

/-- S4: `8A 00`. -/
theorem test_decode_movR8Rm8 :
    decode .reject [0b10001010, 0b00_000_000] =
      .ok (.movR8Rm8 0b000 (.mem (.based 0b000 .noDisp)), []) ∧
    encode (.movR8Rm8 0b000 (.mem (.based 0b000 .noDisp))) = [0x8A, 0x00] := ⟨rfl, rfl⟩

/-- S5: `8B 56 00`. -/
theorem test_decode_movR16Rm16 :
    decode .reject [0b10001011, 0b01_010_110, 0x00] =
      .ok (.movR16Rm16 0b010 (.mem (.based 0b110 (.disp8 0x00))), []) ∧
    encode (.movR16Rm16 0b010 (.mem (.based 0b110 (.disp8 0x00)))) = [0x8B, 0x56, 0x00] :=
  ⟨rfl, rfl⟩

/-- V27: `C6 06 00 10 07`. -/
theorem test_decode_movRm8Imm8 :
    decode .reject [0b11000110, 0b00_000_110, 0x00, 0x10, 0x07] =
      .ok (.movRm8Imm8 0b000 (.mem (.direct 0x1000)) 0x07, []) ∧
    encode (.movRm8Imm8 0b000 (.mem (.direct 0x1000)) 0x07) = [0xC6, 0x06, 0x00, 0x10, 0x07] :=
  ⟨rfl, rfl⟩

/-- V22: `C7 85 85 03 5B 01`. -/
theorem test_decode_movRm16Imm16 :
    decode .reject [0b11000111, 0b10_000_101, 0x85, 0x03, 0x5B, 0x01] =
      .ok (.movRm16Imm16 0b000 (.mem (.based 0b101 (.disp16 0x0385))) 0x015B, []) ∧
    encode (.movRm16Imm16 0b000 (.mem (.based 0b101 (.disp16 0x0385))) 0x015B) =
      [0xC7, 0x85, 0x85, 0x03, 0x5B, 0x01] := ⟨rfl, rfl⟩

/-- S2: `B1 0C`. -/
theorem test_decode_movR8Imm8 :
    decode .reject [0b1011_0_001, 0x0C] = .ok (.movR8Imm8 0b001 0x0C, []) ∧
    encode (.movR8Imm8 0b001 0x0C) = [0xB1, 0x0C] := ⟨rfl, rfl⟩

/-- S3: `B9 F4 FF`. -/
theorem test_decode_movR16Imm16 :
    decode .reject [0b1011_1_001, 0xF4, 0xFF] = .ok (.movR16Imm16 0b001 0xFFF4, []) ∧
    encode (.movR16Imm16 0b001 0xFFF4) = [0xB9, 0xF4, 0xFF] := ⟨rfl, rfl⟩

/-- V47: `A0 10 00`. -/
theorem test_decode_movAlMoffs8 :
    decode .reject [0b1010000_0, 0x10, 0x00] = .ok (.movAlMoffs8 0x0010, []) ∧
    encode (.movAlMoffs8 0x0010) = [0xA0, 0x10, 0x00] := ⟨rfl, rfl⟩

/-- V48: `A1 FB 09`. -/
theorem test_decode_movAxMoffs16 :
    decode .reject [0b1010000_1, 0xFB, 0x09] = .ok (.movAxMoffs16 0x09FB, []) ∧
    encode (.movAxMoffs16 0x09FB) = [0xA1, 0xFB, 0x09] := ⟨rfl, rfl⟩

/-- V49: `A2 FF FF`, followed by a byte of the next instruction. -/
theorem test_decode_movMoffs8Al :
    decode .reject [0b1010001_0, 0xFF, 0xFF, 0x90] = .ok (.movMoffs8Al 0xFFFF, [0x90]) ∧
    encode (.movMoffs8Al 0xFFFF) = [0xA2, 0xFF, 0xFF] := ⟨rfl, rfl⟩

/-- V50: `A3 0F 00`. -/
theorem test_decode_movMoffs16Ax :
    decode .reject [0b1010001_1, 0x0F, 0x00] = .ok (.movMoffs16Ax 0x000F, []) ∧
    encode (.movMoffs16Ax 0x000F) = [0xA3, 0x0F, 0x00] := ⟨rfl, rfl⟩

/-- V28 and V34: the reg field is checked before the immediate is asked for. V29: `Ignore`. -/
theorem test_decode_opcode_extension :
    decode .reject [0xC6, 0x08] = .error (.unrecognizedOpcode 0xC6 (some 0x08)) ∧
    decode .ignore [0xC6, 0x08, 0x05] =
      .ok (.movRm8Imm8 0b001 (.mem (.based 0b000 .noDisp)) 0x05, []) := ⟨rfl, rfl⟩

/-- The decoder's errors by name, each on bytes of section 2 of the vectors (V56, V18, V67). -/
theorem test_decode_errors :
    decode .reject [0x8C, 0xC8] = .error (.unrecognizedOpcode 0x8C none) ∧
    decode .reject [0x8B, 0x56] = .error (.truncated .rm) ∧
    decode .reject [] = .error .endOfBuffer := ⟨rfl, rfl, rfl⟩

/-- The boundaries of the recognized leading bytes (V56, V60 to V66, V71, V72). -/
theorem test_classify_boundaries :
    ∀ b ∈ ([0x00, 0x87, 0x8C, 0x90, 0x9F, 0xA4, 0xAF, 0xC0, 0xC5, 0xC8, 0xFF] : List Byte),
      classify b = .unrecognized := by decide

/-- 26 leading bytes are recognized (R62). -/
theorem test_classify_count :
    ((List.range 256).filter fun n =>
      decide (classify (BitVec.ofNat 8 n) ≠ .unrecognized)).length = 26 := by decide

/-- Section 3.2: the 16 register names. -/
theorem test_register_table :
    ((List.range 8).map fun n => (regName (BitVec.ofNat 3 n) .byte, regName (BitVec.ofNat 3 n) .word)) =
      [(.al, .ax), (.cl, .cx), (.dl, .dx), (.bl, .bx), (.ah, .sp), (.ch, .bp), (.dh, .si),
       (.bh, .di)] := by decide

/-! ## Steps: two for each instruction at most -/

/-- V13: `88 36 00 10`. -/
theorem test_step_movRm8R8 :
    step (stream [0x88, 0x36, 0x00, 0x10]) = .next (logged [0x88, 0x36, 0x00, 0x10]
      ⟨0, 4, .rm, .mov, .byte, some .regIsSource, some ⟨0b00, 0b110, 0b110⟩,
        .mem (.direct 0x1000) .byte, .reg 0b110 .byte⟩) := rfl

/-- V7: `89 46 FD`. -/
theorem test_step_movRm16R16 :
    step (stream [0x89, 0x46, 0xFD]) = .next (logged [0x89, 0x46, 0xFD]
      ⟨0, 3, .rm, .mov, .word, some .regIsSource, some ⟨0b01, 0b000, 0b110⟩,
        .mem (.based 0b110 (.disp8 0xFD)) .word, .reg 0b000 .word⟩) := rfl

/-- V15: `89`. -/
theorem test_step_movRm16R16_truncated :
    step (stream [0x89]) = .next ((stream [0x89]).takeError (.truncatedInstruction .rm 1)) := rfl

/-- V8: `8A 80 00 80`. -/
theorem test_step_movR8Rm8 :
    step (stream [0x8A, 0x80, 0x00, 0x80]) = .next (logged [0x8A, 0x80, 0x00, 0x80]
      ⟨0, 4, .rm, .mov, .byte, some .regIsDest, some ⟨0b10, 0b000, 0b000⟩,
        .reg 0b000 .byte, .mem (.based 0b000 (.disp16 0x8000)) .byte⟩) := rfl

/-- V20: `8B 00 FF`, the last byte left for the next call. -/
theorem test_step_movR16Rm16 :
    step (stream [0x8B, 0x00, 0xFF]) = .next (logged [0x8B, 0x00, 0xFF]
      ⟨0, 2, .rm, .mov, .word, some .regIsDest, some ⟨0b00, 0b000, 0b000⟩,
        .reg 0b000 .word, .mem (.based 0b000 .noDisp) .word⟩) := rfl

/-- V17: `8B 06 34`. -/
theorem test_step_movR16Rm16_truncated :
    step (stream [0x8B, 0x06, 0x34]) =
      .next ((stream [0x8B, 0x06, 0x34]).takeError (.truncatedInstruction .rm 3)) := rfl

/-- V29: `C6 08 05` under `Ignore`. -/
theorem test_step_movRm8Imm8_ignore :
    step (State.boot [0xC6, 0x08, 0x05] 0 .ignore) =
      .next ((State.boot [0xC6, 0x08, 0x05] 0 .ignore).logTuple
        ⟨0, 3, .irm, .mov, .byte, none, some ⟨0b00, 0b001, 0b000⟩,
          .mem (.based 0b000 .noDisp) .byte, .imm (.imm8 0x05)⟩) := rfl

/-- V34: `C6 08`. -/
theorem test_step_movRm8Imm8_reject :
    step (stream [0xC6, 0x08]) =
      .next ((stream [0xC6, 0x08]).takeError (.unrecognizedOpcode 0 0xC6 (some 0x08))) := rfl

/-- V25: `C7 06 00 10 FF FF`, the longest form. -/
theorem test_step_movRm16Imm16 :
    step (stream [0xC7, 0x06, 0x00, 0x10, 0xFF, 0xFF]) =
      .next (logged [0xC7, 0x06, 0x00, 0x10, 0xFF, 0xFF]
        ⟨0, 6, .irm, .mov, .word, none, some ⟨0b00, 0b000, 0b110⟩,
          .mem (.direct 0x1000) .word, .imm (.imm16 0xFFFF)⟩) := rfl

/-- V31: `C7 00 12`. -/
theorem test_step_movRm16Imm16_truncated :
    step (stream [0xC7, 0x00, 0x12]) =
      .next ((stream [0xC7, 0x00, 0x12]).takeError (.truncatedInstruction .irm 3)) := rfl

/-- V37: `B4 80`. -/
theorem test_step_movR8Imm8 :
    step (stream [0xB4, 0x80]) = .next (logged [0xB4, 0x80]
      ⟨0, 2, .ir, .mov, .byte, none, none, .reg 0b100 .byte, .imm (.imm8 0x80)⟩) := rfl

/-- V70: `90 B1 0C` from offset 1. -/
theorem test_step_movR8Imm8_start :
    step (State.boot [0x90, 0xB1, 0x0C] 1 .reject) =
      .next ((State.boot [0x90, 0xB1, 0x0C] 1 .reject).logTuple
        ⟨1, 2, .ir, .mov, .byte, none, none, .reg 0b001 .byte, .imm (.imm8 0x0C)⟩) := rfl

/-- V40: `B9 F4 FF`. -/
theorem test_step_movR16Imm16 :
    step (stream [0xB9, 0xF4, 0xFF]) = .next (logged [0xB9, 0xF4, 0xFF]
      ⟨0, 3, .ir, .mov, .word, none, none, .reg 0b001 .word, .imm (.imm16 0xFFF4)⟩) := rfl

/-- V46: `B8 34`. -/
theorem test_step_movR16Imm16_truncated :
    step (stream [0xB8, 0x34]) =
      .next ((stream [0xB8, 0x34]).takeError (.truncatedInstruction .ir 2)) := rfl

/-- V47: `A0 10 00`. -/
theorem test_step_movAlMoffs8 :
    step (stream [0xA0, 0x10, 0x00]) = .next (logged [0xA0, 0x10, 0x00]
      ⟨0, 3, .ma, .mov, .byte, none, none, .reg 0b000 .byte, .mem (.direct 0x0010) .byte⟩) := rfl

/-- V52: `A1 00 00`. -/
theorem test_step_movAxMoffs16 :
    step (stream [0xA1, 0x00, 0x00]) = .next (logged [0xA1, 0x00, 0x00]
      ⟨0, 3, .ma, .mov, .word, none, none, .reg 0b000 .word, .mem (.direct 0x0000) .word⟩) := rfl

/-- V54: `A1 05`. -/
theorem test_step_movAxMoffs16_truncated :
    step (stream [0xA1, 0x05]) =
      .next ((stream [0xA1, 0x05]).takeError (.truncatedInstruction .ma 2)) := rfl

/-- V49: `A2 FF FF`. -/
theorem test_step_movMoffs8Al :
    step (stream [0xA2, 0xFF, 0xFF]) = .next (logged [0xA2, 0xFF, 0xFF]
      ⟨0, 3, .am, .mov, .byte, none, none, .mem (.direct 0xFFFF) .byte, .reg 0b000 .byte⟩) := rfl

/-- V55: `A2 00`. -/
theorem test_step_movMoffs8Al_truncated :
    step (stream [0xA2, 0x00]) =
      .next ((stream [0xA2, 0x00]).takeError (.truncatedInstruction .am 2)) := rfl

/-- V51: `A3 00 20`. -/
theorem test_step_movMoffs16Ax :
    step (stream [0xA3, 0x00, 0x20]) = .next (logged [0xA3, 0x00, 0x20]
      ⟨0, 3, .am, .mov, .word, none, none, .mem (.direct 0x2000) .word, .reg 0b000 .word⟩) := rfl

/-- V58: a segment-override byte is not skipped. -/
theorem test_step_unrecognized :
    step (stream [0x2E, 0x8B, 0x07]) =
      .next ((stream [0x2E, 0x8B, 0x07]).takeError (.unrecognizedOpcode 0 0x2E none)) := rfl

/-- V68 and V69: the cursor at `N` and past it. -/
theorem test_step_at_and_past_the_end :
    step (State.boot [0xB1, 0x0C] 2 .reject) =
      .next (State.boot [0xB1, 0x0C] 2 .reject).finish ∧
    step (State.boot [0xB1, 0x0C] 3 .reject) = .refused .cursorPastEnd := ⟨rfl, rfl⟩

/-- V29, V35, V67 and V69 as calls of `DecodeOne`. -/
theorem test_decodeOne :
    decodeOne [(0, 0xC6), (1, 0x08), (2, 0x05)] 3 .ignore 0 =
      .ok ⟨0, 3, .irm, .mov, .byte, none, some ⟨0b00, 0b001, 0b000⟩,
        .mem (.based 0b000 .noDisp) .byte, .imm (.imm8 0x05)⟩ 3 ∧
    decodeOne [(0, 0xC7), (1, 0xF8), (2, 0x01)] 4 .reject 0 =
      .err (.unrecognizedOpcode 0 0xC7 (some 0xF8)) ∧
    decodeOne [] 0 .reject 0 = .done ∧ decodeOne [(0, 0xB1), (1, 0x0C)] 2 .reject 3 = .refused := by
  decide

/-- P3: the host skips one byte after the failing instruction. -/
theorem test_restart_after_error :
    step (((State.boot [0x8C, 0xC8] 0 .reject).takeError (.unrecognizedOpcode 0 0x8C none)).restart 1)
      = .next ((State.boot [0x8C, 0xC8] 1 .reject).takeError (.unrecognizedOpcode 1 0xC8 none)) :=
  rfl

/-- A word of the opcode table, the second byte in bits 15 to 8: `88 E5` (V2) after reset. -/
theorem test_table_word :
    decodeTableWord 16 0xE588 = some (.movRm8R8 0b100 (.reg 0b101)) ∧
    decodeTableWord 8 0xC7 = some (.movRm16Imm16 0 (.mem (.based 0 .noDisp)) 0) ∧
    decodeTableWord 8 0x90 = none ∧
    step (State.reset.withFetchWord 16 0xE588) = .next ((State.reset.withFetchWord 16 0xE588).logTuple
      ⟨0, 2, .rm, .mov, .byte, some .regIsSource, some ⟨0b11, 0b100, 0b101⟩,
        .reg 0b101 .byte, .reg 0b100 .byte⟩) := ⟨rfl, rfl, rfl, rfl⟩

/-- Writing keeps the canonical form: the fill byte removes an entry. -/
theorem test_buffer_write :
    Buffer.write [(1, 0x0C)] 0 0xB1 = [(0, 0xB1), (1, 0x0C)] ∧
    Buffer.write [(0, 0xB1), (1, 0x0C)] 1 0x00 = [(0, 0xB1)] ∧
    Buffer.ofBytesAt 0 [0xB1, 0x00, 0x0C] = [(0, 0xB1), (2, 0x0C)] := by decide

/-! ## Witnesses: concrete states and operands that meet the hypotheses of each statement -/

/-- V36, `mov cl, 12`: a stream about to decode it, -/
def clStream : State := stream [0xB1, 0x0C]

/-- the tuple it logs, -/
def clTuple : DecodedInstr :=
  ⟨0, 2, .ir, .mov, .byte, none, none, .reg 0b001 .byte, .imm (.imm8 0x0C)⟩

/-- the state after, whose cursor is at `N`, -/
def clLogged : State := clStream.logTuple clTuple

/-- and the finished stream. -/
def clFinished : State := clLogged.finish

/-- V56: a stream that has failed on its first byte. -/
def segFailed : State :=
  (stream [0x8C, 0xC8]).takeError (.unrecognizedOpcode 0 0x8C none)

/-- V34: a stream that has failed on the reg field. -/
def extFailed : State :=
  (stream [0xC6, 0x08]).takeError (.unrecognizedOpcode 0 0xC6 (some 0x08))

theorem streamInv_of_checks {s : State}
    (h : (s.buf.wf && s.buf.within s.size && tiles s.start s.failingOffset s.log &&
      decide (s.failingOffset ≤ s.size) && s.log.all (loggedWell s) && statusAgrees s) = true) :
    StreamInv s := by
  simp only [Bool.and_eq_true, decide_eq_true_eq] at h
  obtain ⟨⟨⟨⟨⟨h1, h2⟩, h3⟩, h4⟩, h5⟩, h6⟩ := h
  exact ⟨h1, h2, h3, h4, h5, h6⟩

theorem clStream_inv : StreamInv clStream := streamInv_of_checks (by decide)
theorem clLogged_inv : StreamInv clLogged := streamInv_of_checks (by decide)
theorem clFinished_inv : StreamInv clFinished := streamInv_of_checks (by decide)
theorem segFailed_inv : StreamInv segFailed := streamInv_of_checks (by decide)

/-- The three ends of a call as steps of such streams. -/
theorem clStream_step : step clStream = .next clLogged := rfl
theorem clLogged_step : step clLogged = .next clFinished := rfl
theorem segFailed_step : step (stream [0x8C, 0xC8]) = .next segFailed := rfl
theorem extFailed_step : step (stream [0xC6, 0x08]) = .next extFailed := rfl

theorem witness_BootMeetsStreamInvariant :
    0 ≤ ([] : List Byte).length ∧ 2 ≤ ([0xB1, 0x0C] : List Byte).length := by decide

theorem witness_StepKeepsStreamInvariant :
    (StreamInv clStream ∧ step clStream = .next clLogged) ∧
    (StreamInv clLogged ∧ step clLogged = .next clFinished) ∧
    (StreamInv (stream [0x8C, 0xC8]) ∧ step (stream [0x8C, 0xC8]) = .next segFailed) :=
  ⟨⟨clStream_inv, rfl⟩, ⟨clLogged_inv, rfl⟩, ⟨streamInv_of_checks (by decide), rfl⟩⟩

theorem witness_StepRunsDecodedInstruction :
    clStream.runsAt 0 ∧ 0 < clStream.size ∧
      decode clStream.policy (clStream.fetch 0 6) = .ok (.movR8Imm8 0b001 0x0C, []) :=
  ⟨⟨rfl, rfl⟩, by decide, rfl⟩

/-- At the boundary: the instruction ends at `N`. -/
theorem witness_StepRunsEncodedInstruction :
    clStream.runsAt 0 ∧ (Instr.movR8Imm8 0b001 0x0C).wellFormed clStream.policy = true ∧
      0 + (encode (.movR8Imm8 0b001 0x0C)).length ≤ clStream.size ∧
      clStream.buf.bytesAt 0 (encode (.movR8Imm8 0b001 0x0C)).length =
        encode (.movR8Imm8 0b001 0x0C) :=
  ⟨⟨rfl, rfl⟩, by decide, by decide, by decide⟩

theorem witness_StepAgreesWithDecodeStream :
    clStream.runsAt 0 ∧ clFinished.status ≠ .running ∧ segFailed.status ≠ .running :=
  ⟨⟨rfl, rfl⟩, by decide, by decide⟩

/-- `START` at 0 and at `N`, and one step of a stream to a running state. -/
theorem witness_StreamEndsWithinBound :
    0 ≤ ([0xB1, 0x0C] : List Byte).length ∧ 2 ≤ ([0xB1, 0x0C] : List Byte).length ∧
    Host.Core.run Sys2Proof.core 0 clStream = .next clStream ∧ clStream.status = .running ∧
    step clStream = .next clLogged ∧ clLogged.status = .running :=
  ⟨by decide, by decide, rfl, rfl, rfl, rfl⟩

theorem witness_WholeStreamRoundTrips :
    (Host.Core.run Sys2Proof.core 2 (State.boot [0xB1, 0x0C] 0 .reject) = .next clFinished ∧
      clFinished.status = .finished) ∧
    (Host.Core.run Sys2Proof.core 1 (State.boot [0x8C, 0xC8] 0 .reject) = .next segFailed ∧
      segFailed.status = .failed (.unrecognizedOpcode 0 0x8C none)) :=
  ⟨⟨rfl, rfl⟩, ⟨rfl, rfl⟩⟩

theorem witness_SuccessfulCallMovesPastInstruction :
    (step clStream = .next clLogged ∧ clLogged.log = clStream.log ++ [clTuple]) ∧
    (step (stream [0x8C, 0xC8]) = .next segFailed ∧
      segFailed.status = .failed (.unrecognizedOpcode 0 0x8C none)) :=
  ⟨⟨rfl, rfl⟩, ⟨rfl, rfl⟩⟩

theorem witness_LogGrowsByOneTuple :
    (step clStream = .next clLogged ∧ clLogged.status = .running) ∧
    (step clLogged = .next clFinished ∧ clFinished.status ≠ .running) ∧ StreamInv clFinished :=
  ⟨⟨rfl, rfl⟩, ⟨rfl, by decide⟩, clFinished_inv⟩

/-- The three ends of a call. -/
theorem witness_CursorAdvancesOnlyForward :
    (StreamInv clStream ∧ clStream.cursor = some 0 ∧ step clStream = .next clLogged) ∧
    (StreamInv clLogged ∧ clLogged.cursor = some 2 ∧ step clLogged = .next clFinished) ∧
    (StreamInv (stream [0x8C, 0xC8]) ∧ (stream [0x8C, 0xC8]).cursor = some 0 ∧
      step (stream [0x8C, 0xC8]) = .next segFailed) :=
  ⟨⟨clStream_inv, rfl, rfl⟩, ⟨clLogged_inv, rfl, rfl⟩, ⟨streamInv_of_checks (by decide), rfl, rfl⟩⟩

theorem witness_OnlyTheStreamStateChanges :
    step clStream = .next clLogged ∧ exec (.movR8Imm8 0b001 0x0C) clStream = .next clLogged :=
  ⟨rfl, rfl⟩

/-- The longest form, and an extension
field under `Ignore`. -/
theorem witness_DecodeOfEncodeIsIdentity :
    (Instr.movRm16Imm16 0 (.mem (.direct 0xFFFF)) 0xFFFF).wellFormed .reject = true ∧
    (Instr.movRm8Imm8 0b111 (.reg 0b111) 0xFF).wellFormed .ignore = true := by decide

theorem witness_LengthFromFirstTwoBytes :
    (Instr.movAxMoffs16 0x09FB).wellFormed .reject = true ∧
    (Instr.movRm16Imm16 0b111 (.mem (.direct 0)) 0).wellFormed .ignore = true := by decide

theorem witness_DecodedBytesAreTheEncoding :
    decode .reject [0xB1, 0x0C, 0x90] = .ok (.movR8Imm8 0b001 0x0C, [0x90]) := rfl

/-- Two calls whose tuples differ only in where they start. -/
theorem witness_TupleDeterminesItsBytes :
    step clStream = .next clLogged ∧ clLogged.log = clStream.log ++ [clTuple] ∧
    step (State.boot [0x90, 0xB1, 0x0C] 1 .reject) =
      .next ((State.boot [0x90, 0xB1, 0x0C] 1 .reject).logTuple { clTuple with start := 1 }) ∧
    { clTuple with start := 0, length := 0 } =
      { { clTuple with start := 1 } with start := 0, length := 0 } := ⟨rfl, rfl, rfl, rfl⟩

theorem witness_LoggedTupleHasTheTupleForm :
    step clStream = .next clLogged ∧ clLogged.log = clStream.log ++ [clTuple] := ⟨rfl, rfl⟩

theorem witness_UnrecognizedByteEndsTheStream :
    (stream [0x8C]).runsAt 0 ∧ 0 < (stream [0x8C]).size ∧
      classify ((stream [0x8C]).buf.read 0) = .unrecognized := ⟨⟨rfl, rfl⟩, by decide, by decide⟩

/-- The tests made in the reverse order. -/
theorem witness_TestOrderDoesNotMatter (tests : List (Byte × Byte × (Byte → Classified))) :
    tests.reverse.Perm tests := List.reverse_perm tests

/-- The codes next to 110. -/
theorem witness_ModSelectsTheAddressingForm :
    (0b101 : RegCode) ≠ 0b110 ∧ (0b111 : RegCode) ≠ 0b110 := by decide

theorem witness_RegisterTableIsInjective : regName 0b100 .word = regName 0b100 .word := rfl

/-- Base bp under mod = 01 and mod = 10. -/
theorem witness_EffectiveAddressTable :
    decodeRmField .rm ⟨0b01, 0b010, 0b110⟩ [0x00] = .ok (.mem (.based 0b110 (.disp8 0x00)), []) ∧
    decodeRmField .rm ⟨0b10, 0b010, 0b110⟩ [0x34, 0x12] =
      .ok (.mem (.based 0b110 (.disp16 0x1234)), []) := ⟨rfl, rfl⟩

/-- At the boundary of each clause: the last byte at `N - 1`, and one byte short. -/
theorem witness_ImmediateFieldsAreUnsigned :
    1 + 1 ≤ 2 ∧ 1 + 2 ≤ 3 ∧ 2 < 2 + 1 ∧ 2 < 1 + 2 := by decide

/-- A running stream of `n` bytes, all of them the fill byte, for the hypotheses on sizes. -/
def room (n : Nat) (policy : C6RegPolicy) : State := State.boot (List.replicate n 0) 0 policy

/-- R100: just enough bytes, and one too few, for a form of 2 bytes and one of 4. -/
theorem witness_RegMemMovesLogTheirTuple :
    (∀ n, 1 ≤ n → (room n .reject).runsAt 0) ∧
    (0 < (room 2 .reject).size ∧ 0 + (2 + (RmField.reg 0).dispLength) ≤ (room 2 .reject).size) ∧
    (0 < (room 4 .reject).size ∧
      0 + (2 + (RmField.mem (.direct 0)).dispLength) ≤ (room 4 .reject).size) ∧
    (0 < (room 1 .reject).size ∧ (room 1 .reject).size < 0 + (2 + (RmField.reg 0).dispLength)) ∧
    (0 < (room 3 .reject).size ∧
      (room 3 .reject).size < 0 + (2 + (RmField.mem (.direct 0)).dispLength)) :=
  ⟨fun _ _ => ⟨rfl, rfl⟩, by decide, by decide, by decide, by decide⟩

/-- R120: one byte only, the rejected reg field, one byte too few and just enough for each width. -/
theorem witness_ImmediateToRmMovesLogTheirTuple :
    (∀ n policy, (room n policy).runsAt 0) ∧
    (0 < (room 1 .reject).size ∧ (room 1 .reject).size < 0 + 2) ∧
    (0 + 2 ≤ (room 2 .reject).size ∧ (0b001 : RegCode) ≠ 0b000 ∧
      (room 2 .reject).policy = .reject) ∧
    ((0b001 : RegCode) = 0b000 ∨ (room 3 .ignore).policy = .ignore) ∧
    (room 2 .reject).size < 0 + (2 + (RmField.reg 0).dispLength + 1) ∧
    0 + (2 + (RmField.reg 0).dispLength + 1) ≤ (room 3 .ignore).size ∧
    (room 5 .reject).size < 0 + (2 + (RmField.mem (.direct 0)).dispLength + 2) ∧
    0 + (2 + (RmField.mem (.direct 0)).dispLength + 2) ≤ (room 6 .reject).size :=
  ⟨fun _ _ => ⟨rfl, rfl⟩, by decide, by decide, by decide, by decide, by decide, by decide,
    by decide⟩

/-- R123, R140: just enough bytes and one too few, at 2 and 3 bytes. -/
theorem witness_ImmediateToRegisterMovesLogTheirTuple :
    (∀ n, (room n .reject).runsAt 0) ∧ 0 < (room 1 .reject).size ∧
    0 + 2 ≤ (room 2 .reject).size ∧ 0 + 3 ≤ (room 3 .reject).size ∧
    (room 1 .reject).size < 0 + 2 ∧ (room 2 .reject).size < 0 + 3 :=
  ⟨fun _ => ⟨rfl, rfl⟩, by decide, by decide, by decide, by decide, by decide⟩

theorem witness_AccumulatorMovesLogTheirTuple :
    (∀ n, (room n .reject).runsAt 0) ∧ 0 < (room 2 .reject).size ∧
    0 + 3 ≤ (room 3 .reject).size ∧ (room 2 .reject).size < 0 + 3 :=
  ⟨fun _ => ⟨rfl, rfl⟩, by decide, by decide, by decide⟩

theorem witness_ErrorLeavesLogAndNoCursor :
    step (stream [0x8C, 0xC8]) = .next segFailed ∧
      segFailed.status = .failed (.unrecognizedOpcode 0 0x8C none) := ⟨rfl, rfl⟩

/-- Both causes of R171, and a truncation (R172) at the boundary `rem = Length - 1`. -/
theorem witness_UnrecognizedOpcodeCauses :
    ((stream [0x8C, 0xC8]).runsAt 0 ∧ 0 < (stream [0x8C, 0xC8]).size ∧
      step (stream [0x8C, 0xC8]) = .next segFailed) ∧
    ((stream [0xC6, 0x08]).runsAt 0 ∧ 0 < (stream [0xC6, 0x08]).size ∧
      step (stream [0xC6, 0x08]) = .next extFailed) :=
  ⟨⟨⟨rfl, rfl⟩, by decide, rfl⟩, ⟨⟨rfl, rfl⟩, by decide, rfl⟩⟩

theorem witness_TruncatedInstructionCauses :
    (stream [0xC7, 0x00, 0x12]).runsAt 0 ∧ 0 < (stream [0xC7, 0x00, 0x12]).size ∧
    step (stream [0xC7, 0x00, 0x12]) = .next { stream [0xC7, 0x00, 0x12] with
      status := .failed (.truncatedInstruction .irm 3), cursor := none } :=
  ⟨⟨rfl, rfl⟩, by decide, rfl⟩

theorem witness_UnsupportedAddressingModeNeverRaised :
    step (stream [0x8C, 0xC8]) = .next segFailed ∧
    exec (.movR8Imm8 0b001 0x0C) clStream = .next clLogged := ⟨rfl, rfl⟩

/-- R174: one stream in each of the eight lines. -/
theorem witness_FirstConditionDecidesTheResult :
    (State.boot [] 1 .reject).runsAt 1 ∧ (stream []).runsAt 0 ∧ (stream [0x90]).runsAt 0 ∧
    (stream [0x89]).runsAt 0 ∧ (stream [0xC6, 0x08]).runsAt 0 ∧ (stream [0xA1, 0x05]).runsAt 0 ∧
    (stream [0xC6, 0x46, 0xFE]).runsAt 0 ∧ clStream.runsAt 0 :=
  ⟨⟨rfl, rfl⟩, ⟨rfl, rfl⟩, ⟨rfl, rfl⟩, ⟨rfl, rfl⟩, ⟨rfl, rfl⟩, ⟨rfl, rfl⟩, ⟨rfl, rfl⟩,
    ⟨rfl, rfl⟩⟩

theorem witness_FirstErrorIsKept :
    Host.Core.run Sys2Proof.core 1 (stream [0x8C, 0xC8]) = .next segFailed ∧
    segFailed.status = .failed (.unrecognizedOpcode 0 0x8C none) := ⟨rfl, rfl⟩

/-- For the last clause, `C6 46 FE` (V33) cut from `C6 46 FE 80` (V26), one byte short of its length. -/
theorem witness_DoneExactlyAtTheEnd :
    (clLogged.runsAt clLogged.size ∧ step clLogged = .next clFinished ∧
      clFinished.status = .finished) ∧
    (let s := stream [0xC6, 0x46, 0xFE]
     let i := Instr.movRm8Imm8 0 (.mem (.based 0b110 (.disp8 0xFE))) 0x80
     s.runsAt 0 ∧ 0 < s.size ∧ i.wellFormed s.policy = true ∧ s.size < 0 + (encode i).length ∧
      s.buf.bytesAt 0 (s.size - 0) = (encode i).take (s.size - 0)) :=
  ⟨⟨⟨rfl, rfl⟩, rfl, rfl⟩, ⟨rfl, rfl⟩, by decide, by decide, by decide, by decide⟩

theorem witness_RefusedOnlyPastTheEnd :
    (State.boot [0xB1, 0x0C] 3 .reject).runsAt 3 ∧ (State.boot [0xB1, 0x0C] 3 .reject).size < 3 ∧
    step (State.boot [0xB1, 0x0C] 3 .reject) = .refused .cursorPastEnd ∧ StreamInv clLogged :=
  ⟨⟨rfl, rfl⟩, by decide, rfl, clLogged_inv⟩

theorem witness_EndedStreamsStop :
    clFinished.status = .finished ∧
    segFailed.status = .failed (.unrecognizedOpcode 0 0x8C none) ∧
    ({ clStream with cursor := none } : State).status = .running ∧ StreamInv clFinished :=
  ⟨rfl, rfl, rfl, clFinished_inv⟩

theorem witness_AmountOfInputConsumed :
    (step clStream = .next clLogged ∧ clLogged.log = clStream.log ++ [clTuple]) ∧
    (StreamInv clFinished ∧ clFinished.status = .finished) ∧
    (StreamInv segFailed ∧ segFailed.status = .failed (.unrecognizedOpcode 0 0x8C none)) :=
  ⟨⟨rfl, rfl⟩, ⟨clFinished_inv, rfl⟩, ⟨segFailed_inv, rfl⟩⟩

theorem witness_RestartAfterErrorStartsAStream :
    StreamInv segFailed ∧ segFailed.status = .failed (.unrecognizedOpcode 0 0x8C none) :=
  ⟨segFailed_inv, rfl⟩

/-- Two streams that differ below the cursor, at the offset after its window, in `START` and in the
log. -/
theorem witness_DecodingIsContextFree :
    let s₁ := State.boot [0x90, 0xB1, 0x0C, 0, 0, 0, 0, 0x01] 1 .reject
    let s₂ : State := { State.boot [0x91, 0xB1, 0x0C, 0, 0, 0, 0, 0x02] 0 .reject with
      cursor := some 1, log := [clTuple] }
    s₁.runsAt 1 ∧ s₂.runsAt 1 ∧ s₁.size = s₂.size ∧ s₁.policy = s₂.policy ∧
    (∀ a, 1 ≤ a → a ≤ min (1 + 5) (s₁.size - 1) → s₁.buf.read a = s₂.buf.read a) ∧
    s₁.buf.read 0 ≠ s₂.buf.read 0 ∧ s₁.buf.read 7 ≠ s₂.buf.read 7 := by
  refine ⟨⟨rfl, rfl⟩, ⟨rfl, rfl⟩, rfl, rfl, ?_, by decide, by decide⟩
  intro a h1 h2
  have : a < 7 := by
    have : min (1 + 5) ((State.boot [0x90, 0xB1, 0x0C, 0, 0, 0, 0, 0x01] 1 .reject).size - 1) = 6 :=
      by decide
    omega
  revert a
  decide

/-- One witness for each of the four clauses, the two buffers of the first three being of different
lengths. -/
theorem witness_CallReadsOnlyItsBytes :
    (clStream.runsAt 0 ∧ (stream [0xB1, 0x0C, 0x90]).runsAt 0 ∧
      step clStream = .next (clStream.logTuple clTuple) ∧
      0 + clTuple.length ≤ (stream [0xB1, 0x0C, 0x90]).size ∧
      (∀ a < 2, clStream.buf.read a = (stream [0xB1, 0x0C, 0x90]).buf.read a)) ∧
    (step (stream [0x8C, 0xC8]) =
        .next ((stream [0x8C, 0xC8]).takeError (.unrecognizedOpcode 0 0x8C none)) ∧
      0 < (stream [0x8C]).size ∧ (stream [0x8C, 0xC8]).buf.read 0 = (stream [0x8C]).buf.read 0) ∧
    (step (stream [0xC6, 0x08]) =
        .next ((stream [0xC6, 0x08]).takeError (.unrecognizedOpcode 0 0xC6 (some 0x08))) ∧
      0 + 1 < (stream [0xC6, 0x08, 0x05]).size ∧
      (∀ a < 2, (stream [0xC6, 0x08]).buf.read a = (stream [0xC6, 0x08, 0x05]).buf.read a)) ∧
    (step (stream [0x89]) = .next ((stream [0x89]).takeError (.truncatedInstruction .rm 1)) ∧
      (stream [0x89]).size = ({ stream [0x89] with log := [clTuple] } : State).size ∧
      ∀ a, 0 ≤ a → a < (stream [0x89]).size →
        (stream [0x89]).buf.read a = ({ stream [0x89] with log := [clTuple] } : State).buf.read a) :=
  ⟨⟨⟨rfl, rfl⟩, ⟨rfl, rfl⟩, rfl, by decide, by decide⟩, ⟨rfl, by decide, by decide⟩,
    ⟨rfl, by decide, by decide⟩, ⟨rfl, rfl, fun _ _ _ => rfl⟩⟩

/-- At the boundary `N = 2^bits - 1`, where the cursor reaches `N`. -/
theorem witness_CursorFitsARealisation :
    let s := stream [0xB9, 0xF4, 0xFF]
    StreamInv s ∧ s.size < 2 ^ 2 ∧
      step s = .next (s.logTuple
        ⟨0, 3, .ir, .mov, .word, none, none, .reg 0b001 .word, .imm (.imm16 0xFFF4)⟩) ∧
      (s.logTuple
        ⟨0, 3, .ir, .mov, .word, none, none, .reg 0b001 .word, .imm (.imm16 0xFFF4)⟩).cursor =
          some 3 :=
  ⟨streamInv_of_checks (by decide), by decide, rfl, rfl⟩

/-- After reset, and in a stream that has failed, whose cursor holds no value. -/
theorem witness_PlacedWordRunsNext :
    (State.reset.buf.wf = true ∧ State.reset.policy = .reject) ∧
    (segFailed.buf.wf = true ∧ segFailed.policy = .reject) ∧
    decodeTableWord 8 0xB0 = some (.movR8Imm8 0 0) := ⟨by decide, by decide, rfl⟩

end Sys2Proof.Tests
end

/-! # Proofs: the state of a stream (10_state.md)

`decode_agrees` ties the decoder on fetched bytes to the spec's `DecodeOne` on offsets, shape by shape.
From it `step_eq_next` says once what a step can do, and every statement below is read off that. -/

namespace Sys2Proof.Machine

/-! ## A call is `DecodeOne` at the cursor -/

/-- The decoder's answer on the bytes at `c` (left) and a shape procedure's answer at `c` (right) say
the same: the same instruction, all of it below `N`, or the same error. -/
inductive CallAgrees (s : State) (c : Nat) :
    Except DecodeError (Instr × List Byte) → Except ErrorRecord (DecodedInstr × Nat) → Prop where
  | ok {i : Instr} {rest : List Byte} {t : DecodedInstr} {next : Nat}
      (wf : i.wellFormed s.policy = true) (tuple : t = tupleOf c i)
      (next_eq : next = c + (tupleOf c i).length) (inside : next ≤ s.size) :
      CallAgrees s c (.ok (i, rest)) (.ok (t, next))
  | unrecognizedOpcode (pattern : Byte) (second : Option Byte) :
      CallAgrees s c (.error (.unrecognizedOpcode pattern second))
        (.error (.unrecognizedOpcode c pattern second))
  | truncated (shape : Shape) :
      CallAgrees s c (.error (.truncated shape)) (.error (.truncatedInstruction shape s.size))

@[simp] theorem tupleOf_regMemInstr (c : Nat) (d : Direction) (w : Width) (reg : RegCode)
    (o : RmField) : tupleOf c (regMemInstr d w reg o) = regMemTuple d w reg o c := by
  cases d <;> cases w <;> rfl

@[simp] theorem wellFormed_regMemInstr (policy : C6RegPolicy) (d : Direction) (w : Width)
    (reg : RegCode) (o : RmField) :
    (regMemInstr d w reg o).wellFormed policy = o.wellFormed := by
  cases d <;> cases w <;> rfl

/-- R76: the policy accepts a reg field unless it is `Reject` and the field is not 000. -/
theorem accepts_eq_false_iff (policy : C6RegPolicy) (reg : RegCode) :
    policy.accepts reg = false ↔ reg ≠ 0 ∧ policy = .reject := by
  cases policy <;> simp [C6RegPolicy.accepts]

theorem wellFormed_of_accepts {policy : C6RegPolicy} {reg : RegCode}
    (h : policy.accepts reg = true) : (reg == 0 || policy == .ignore) = true := by
  cases policy <;> simp_all [C6RegPolicy.accepts]

/-- R74 at width 0. -/
theorem readImmAt_byte_ok {buf : Buffer} {n p : Nat} (shape : Shape) (h : p + 1 ≤ n) :
    readImmAt buf n .byte p shape = .ok (.imm8 (memRead1 buf p), p + 1) := by
  simp [readImmAt, need_ok shape h, bind, Except.bind]

/-- R74 at width 1. -/
theorem readImmAt_word_ok {buf : Buffer} {n p : Nat} (shape : Shape) (h : p + 2 ≤ n) :
    readImmAt buf n .word p shape = .ok (.imm16 (memRead2 buf p), p + 2) := by
  simp [readImmAt, need_ok shape h, bind, Except.bind]

theorem readImmAt_error {buf : Buffer} {n p : Nat} {w : Width} (shape : Shape)
    (h : n < p + w.bytes) :
    readImmAt buf n w p shape = .error (.truncatedInstruction shape n) := by
  cases w with
  | byte => rw [Width.bytes_byte] at h; simp [readImmAt, need_error shape h, bind, Except.bind]
  | word => rw [Width.bytes_word] at h; simp [readImmAt, need_error shape h, bind, Except.bind]

/-! The record a shape procedure builds, its length counted by offsets, is the tuple of the shape. -/

theorem regMemTuple_eq {c : Nat} {d : Direction} {w : Width} {x : ModRM} {o : RmField}
    (hx : o.modrm x.reg = x) :
    { regMemTuple d w x.reg o c with
      length := c + 1 + 1 + o.dispLength - c, modrm := some x } = regMemTuple d w x.reg o c := by
  simp only [regMemTuple, hx, DecodedInstr.mk.injEq, and_true, true_and]
  omega

theorem immRmTuple_eq {c : Nat} {w : Width} {x : ModRM} {o : RmField} {i : Imm}
    (hx : o.modrm x.reg = x) :
    { immRmTuple w x.reg o i c with
      length := c + 1 + 1 + o.dispLength + w.bytes - c, modrm := some x } =
      immRmTuple w x.reg o i c := by
  simp only [immRmTuple, hx, DecodedInstr.mk.injEq, and_true, true_and]
  omega

theorem immRegTuple_eq {c : Nat} {w : Width} {code : RegCode} {i : Imm} :
    { immRegTuple w code i c with length := c + 1 + w.bytes - c } = immRegTuple w code i c := by
  simp only [immRegTuple, DecodedInstr.mk.injEq, and_true, true_and]
  omega

/-! Each shape's decoder agrees with the shape's procedure. -/

/-- Shape `RM` (R100). -/
theorem decodeRegMem_agrees (s : State) (c : Nat) (d : Direction) (w : Width) :
    CallAgrees s c (decodeRegMem d w (s.fetch (c + 1) 5)) (decodeRMShape s.buf s.size c d w) := by
  unfold decodeRegMem decodeRMShape
  dsimp only
  by_cases hm : s.size < c + 1 + 1
  · rw [takeByte_fetch_error .rm 4 hm, need_error .rm hm]
    exact .truncated _
  · rw [takeByte_fetch_ok .rm 4 (Nat.not_lt.1 hm), need_ok .rm (Nat.not_lt.1 hm)]
    rcases decodeRmField_fetch s .rm (ModRM.ofByte (memRead1 s.buf (c + 1))) w (c + 1 + 1) 2 with
      ⟨o, hd, ho, hwf, hx, -, hl⟩ | ⟨hd, ho, -⟩
    · simp only [bind, Except.bind, hd, ho]
      refine .ok (by simpa using hwf) ?_ ?_ (by omega)
      · exact (regMemTuple_eq hx).trans (tupleOf_regMemInstr ..).symm
      · simp only [tupleOf_regMemInstr, regMemTuple]; omega
    · simp only [bind, Except.bind, hd, ho]
      exact .truncated _

/-- Shape `IRM` (R120): the reg check of R76 before the r/m field, the immediate last. -/
theorem decodeImmRm_agrees (s : State) (c : Nat) (w : Width) :
    CallAgrees s c (decodeImmRm s.policy (s.buf.read c) w (s.fetch (c + 1) 5))
      (decodeIRMShape s.buf s.size s.policy c w) := by
  unfold decodeImmRm decodeIRMShape
  dsimp only
  by_cases hm : s.size < c + 1 + 1
  · rw [takeByte_fetch_error .irm 4 hm, need_error .irm hm]
    exact .truncated _
  rw [takeByte_fetch_ok .irm 4 (Nat.not_lt.1 hm), need_ok .irm (Nat.not_lt.1 hm)]
  simp only [bind, Except.bind, ← accepts_eq_false_iff]
  cases hacc : s.policy.accepts (ModRM.ofByte (memRead1 s.buf (c + 1))).reg with
  | false => exact .unrecognizedOpcode _ _
  | true =>
    simp only [if_true, Bool.true_eq_false, if_false]
    rcases decodeRmField_fetch s .irm (ModRM.ofByte (memRead1 s.buf (c + 1))) w (c + 1 + 1) 2 with
      ⟨o, hd, ho, hwf, hx, -, hl⟩ | ⟨hd, ho, -⟩
    · simp only [hd, ho]
      have hreg := wellFormed_of_accepts hacc
      obtain ⟨n, hn⟩ : ∃ n, 2 + 2 - o.dispLength = n + 2 :=
        ⟨2 - o.dispLength, by have := o.dispLength_le; omega⟩
      rw [hn]
      by_cases hi : s.size < c + 1 + 1 + o.dispLength + w.bytes
      · rw [readImmAt_error .irm hi]
        cases w with
        | byte => rw [takeByte_fetch_error .irm (n + 1) hi]; exact .truncated _
        | word => rw [takeWord_fetch_error .irm n hi]; exact .truncated _
      · rw [Nat.not_lt] at hi
        cases w with
        | byte =>
          rw [readImmAt_byte_ok .irm hi, takeByte_fetch_ok .irm (n + 1) hi]
          refine .ok ?_ (immRmTuple_eq (w := .byte) hx) ?_ hi
          · simp only [Instr.wellFormed, hwf, hreg, Bool.and_self]
          · simp only [tupleOf, immRmTuple, Width.bytes_byte]; omega
        | word =>
          rw [readImmAt_word_ok .irm hi, takeWord_fetch_ok .irm n hi]
          refine .ok ?_ (immRmTuple_eq (w := .word) hx) ?_ hi
          · simp only [Instr.wellFormed, hwf, hreg, Bool.and_self]
          · simp only [tupleOf, immRmTuple, Width.bytes_word]; omega
    · simp only [hd, ho]
      exact .truncated _

/-- Shape `IR` (R123). -/
theorem decodeImmReg_agrees (s : State) (c : Nat) (w : Width) (code : RegCode) :
    CallAgrees s c (decodeImmReg w code (s.fetch (c + 1) 5))
      (decodeIRShape s.buf s.size c w code) := by
  unfold decodeImmReg decodeIRShape
  dsimp only
  by_cases hi : s.size < c + 1 + w.bytes
  · rw [readImmAt_error .ir hi]
    cases w with
    | byte => rw [takeByte_fetch_error .ir 4 hi]; exact .truncated _
    | word => rw [takeWord_fetch_error .ir 3 hi]; exact .truncated _
  · rw [Nat.not_lt] at hi
    cases w with
    | byte =>
      rw [readImmAt_byte_ok .ir hi, takeByte_fetch_ok .ir 4 hi]
      exact .ok rfl (immRegTuple_eq (w := .byte)) rfl hi
    | word =>
      rw [readImmAt_word_ok .ir hi, takeWord_fetch_ok .ir 3 hi]
      exact .ok rfl (immRegTuple_eq (w := .word)) rfl hi

/-- Shape `MA` (R140). -/
theorem decodeMemAcc_agrees (s : State) (c : Nat) (w : Width) :
    CallAgrees s c (decodeMemAcc w (s.fetch (c + 1) 5))
      (decodeAccShape s.buf s.size c true w) := by
  unfold decodeMemAcc decodeAccShape
  by_cases ha : s.size < c + 1 + 2
  · simp only [takeWord_fetch_error .ma 3 ha, need_error _ ha]
    exact .truncated _
  · simp only [takeWord_fetch_ok .ma 3 (Nat.not_lt.1 ha), need_ok _ (Nat.not_lt.1 ha)]
    cases w <;> exact .ok rfl rfl rfl (Nat.not_lt.1 ha)

/-- Shape `AM` (R140). -/
theorem decodeAccMem_agrees (s : State) (c : Nat) (w : Width) :
    CallAgrees s c (decodeAccMem w (s.fetch (c + 1) 5))
      (decodeAccShape s.buf s.size c false w) := by
  unfold decodeAccMem decodeAccShape
  by_cases ha : s.size < c + 1 + 2
  · simp only [takeWord_fetch_error .am 3 ha, need_error _ ha]
    exact .truncated _
  · simp only [takeWord_fetch_ok .am 3 (Nat.not_lt.1 ha), need_ok _ (Nat.not_lt.1 ha)]
    cases w <;> exact .ok rfl rfl rfl (Nat.not_lt.1 ha)

/-- Below `N` the decoder on the fetched bytes agrees with `DecodeOne` (R150; log entry 11). -/
theorem decode_agrees {s : State} {c : Nat} (hc : c < s.size) :
    ∃ r, decodeOne s.buf s.size s.policy c = callResult r ∧
      CallAgrees s c (decode s.policy (s.fetch c Config.maxLength)) r := by
  rw [show Config.maxLength = 5 + 1 from rfl, State.fetch_lt 5 hc]
  simp only [decode, decodeOne, memRead1, if_neg (Nat.not_lt.2 hc.le), if_neg hc.ne]
  cases classify (s.buf.read c) with
  | rm d w => exact ⟨_, rfl, decodeRegMem_agrees s c d w⟩
  | irm w => exact ⟨_, rfl, decodeImmRm_agrees s c w⟩
  | ir w code => exact ⟨_, rfl, decodeImmReg_agrees s c w code⟩
  | ma w => exact ⟨_, rfl, decodeMemAcc_agrees s c w⟩
  | am w => exact ⟨_, rfl, decodeAccMem_agrees s c w⟩
  | unrecognized => exact ⟨.error (.unrecognizedOpcode c _ none), rfl, .unrecognizedOpcode _ _⟩

/-- What `DecodeOne` answers below `N`, and the step it makes: an error taken, or the tuple of a
well-formed instruction, all of it below `N`, logged. -/
theorem step_inside {s : State} {c : Nat} (h : s.runsAt c) (hc : c < s.size) :
    (∃ e, decodeOne s.buf s.size s.policy c = .err e ∧ step s = .next (s.takeError e)) ∨
    ∃ i, i.wellFormed s.policy = true ∧ c + (tupleOf c i).length ≤ s.size ∧
      decodeOne s.buf s.size s.policy c = .ok (tupleOf c i) (c + (tupleOf c i).length) ∧
      step s = .next (s.logTuple (tupleOf c i)) := by
  obtain ⟨r, hr, hag⟩ := decode_agrees hc
  rw [step, beginCall_inside h hc, hr]
  generalize decode s.policy (s.fetch c Config.maxLength) = answer at hag ⊢
  cases hag with
  | @ok i _ _ _ hwf ht hn hin =>
    subst ht hn
    exact .inr ⟨i, hwf, hin, rfl, exec_fits h hwf hin⟩
  | unrecognizedOpcode p m => exact .inl ⟨_, rfl, rfl⟩
  | truncated shape => exact .inl ⟨_, rfl, rfl⟩

/-- Whatever a step does when it gives a next state. -/
theorem step_eq_next {s s' : State} (h : step s = .next s') :
    ∃ c, s.runsAt c ∧
      (c = s.size ∧ s' = s.finish ∨
       (∃ e, c < s.size ∧ decodeOne s.buf s.size s.policy c = .err e ∧ s' = s.takeError e) ∨
       ∃ i, i.wellFormed s.policy = true ∧ c + (tupleOf c i).length ≤ s.size ∧
         decodeOne s.buf s.size s.policy c = .ok (tupleOf c i) (c + (tupleOf c i).length) ∧
         s' = s.logTuple (tupleOf c i)) := by
  obtain ⟨c, hr, hend | ⟨hc, -⟩⟩ := beginCall_eq_next h
  · exact ⟨c, hr, .inl hend⟩
  · refine ⟨c, hr, .inr ?_⟩
    rcases step_inside hr hc with ⟨e, hd, hs⟩ | ⟨i, hwf, hin, hd, hs⟩ <;> rw [hs] at h <;> cases h
    · exact .inl ⟨e, hc, hd, rfl⟩
    · exact .inr ⟨i, hwf, hin, hd, rfl⟩

/-- A step of a running stream whose cursor is not past `N` gives a next state. -/
theorem step_progress {s : State} {c : Nat} (h : s.runsAt c) (hc : c ≤ s.size) :
    ∃ s', step s = .next s' := by
  rcases hc.lt_or_eq with hlt | rfl
  · rcases step_inside h hlt with ⟨e, -, hs⟩ | ⟨i, -, -, -, hs⟩
    · exact ⟨_, hs⟩
    · exact ⟨_, hs⟩
  · exact ⟨s.finish, by rw [step, beginCall_runsAt h, if_neg (lt_irrefl _), if_pos rfl]⟩

/-- Only a running stream whose cursor is past `N` is refused (R152). -/
theorem step_eq_refused {s : State} {r : Refusal} (h : step s = .refused r) :
    ∃ c, s.runsAt c ∧ s.size < c := by
  obtain ⟨c, hr, ⟨hc, -⟩ | ⟨hc, -⟩⟩ := beginCall_eq_refused h
  · exact ⟨c, hr, hc⟩
  · obtain ⟨s', hs⟩ := step_progress hr hc.le
    rw [hs] at h
    cases h

/-! ## The invariant of a stream is kept -/

theorem tiles_append_singleton {a b : Nat} {ts : List DecodedInstr} {t : DecodedInstr}
    (h : tiles a b ts = true) (ht : t.start = b) :
    tiles a (b + t.length) (ts ++ [t]) = true := by
  induction ts generalizing a with
  | nil =>
    obtain rfl : a = b := by simpa [tiles] using h
    simp [tiles, ht]
  | cons u us ih =>
    simp only [tiles, List.cons_append, Bool.and_eq_true] at h ⊢
    exact ⟨h.1, ih h.2⟩

@[simp] theorem consumed_logTuple (s : State) (t : DecodedInstr) :
    (s.logTuple t).consumed = s.consumed + t.length := by
  simp [State.consumed]

@[simp] theorem failingOffset_logTuple (s : State) (t : DecodedInstr) :
    (s.logTuple t).failingOffset = s.failingOffset + t.length := by
  simp [State.failingOffset, Nat.add_assoc]

@[simp] theorem failingOffset_finish (s : State) : s.finish.failingOffset = s.failingOffset := rfl

@[simp] theorem failingOffset_takeError (s : State) (e : ErrorRecord) :
    (s.takeError e).failingOffset = s.failingOffset := rfl

/-- While the stream runs the cursor stands where the log ends (R22, R159). -/
theorem StreamInv.cursor_eq {s : State} {c : Nat} (hi : StreamInv s) (h : s.runsAt c) :
    c = s.failingOffset := by
  have := hi.agrees
  simpa [statusAgrees, h.1, h.2] using this

/-- A running stream has a cursor, where the log ends. -/
theorem StreamInv.runsAt {s : State} (hi : StreamInv s) (h : s.status = .running) :
    s.runsAt s.failingOffset := by
  have := hi.agrees
  exact ⟨h, by simpa [statusAgrees, h] using this⟩

theorem streamInv_finish {s : State} (hi : StreamInv s) (h : s.runsAt s.size) :
    StreamInv s.finish where
  canonical := hi.canonical
  bounded := hi.bounded
  tiled := hi.tiled
  inside := hi.inside
  logged := hi.logged
  agrees := by simp [statusAgrees, h.2, ← hi.cursor_eq h]

theorem streamInv_takeError {s : State} {c : Nat} {e : ErrorRecord} (hi : StreamInv s)
    (h : s.runsAt c) (he : decodeOne s.buf s.size s.policy c = .err e) :
    StreamInv (s.takeError e) where
  canonical := hi.canonical
  bounded := hi.bounded
  tiled := hi.tiled
  inside := hi.inside
  logged := hi.logged
  agrees := by simp [statusAgrees, errorFits, ← hi.cursor_eq h, he]

theorem streamInv_logTuple {s : State} {t : DecodedInstr} (hi : StreamInv s)
    (h : s.runsAt t.start) (hin : t.start + t.length ≤ s.size)
    (ht : decodeOne s.buf s.size s.policy t.start = .ok t (t.start + t.length)) :
    StreamInv (s.logTuple t) where
  canonical := hi.canonical
  bounded := hi.bounded
  tiled := by
    rw [failingOffset_logTuple]
    exact tiles_append_singleton hi.tiled (hi.cursor_eq h)
  inside := by rw [failingOffset_logTuple, ← hi.cursor_eq h]; exact hin
  logged := by
    have hlog : s.log.all (loggedWell (s.logTuple t)) = true := hi.logged
    rw [State.logTuple_log, List.all_append, hlog]
    simp [loggedWell, ht]
  agrees := by simp [statusAgrees, h.1, ← hi.cursor_eq h]

theorem step_keeps_streamInv {s s' : State} (hi : StreamInv s) (h : step s = .next s') :
    StreamInv s' := by
  obtain ⟨c, hr, ⟨rfl, rfl⟩ | ⟨e, -, he, rfl⟩ | ⟨i, -, hin, hd, rfl⟩⟩ := step_eq_next h
  · exact streamInv_finish hi hr
  · exact streamInv_takeError hi hr he
  · exact streamInv_logTuple hi (by simpa using hr) (by simpa using hin) (by simpa using hd)

/-- Settles O4: each of the three ends of a call that give a next state keeps the invariant. -/
theorem stepKeepsStreamInvariant : Obligations.StepKeepsStreamInvariant :=
  fun _ _ hi h => step_keeps_streamInv hi h

/-! ## Every stream ends within the bound -/

/-- Every start the host may make meets the invariant (R190, R191). -/
theorem boot_streamInv (bytes : List Byte) {start : Nat} (policy : C6RegPolicy)
    (h : start ≤ bytes.length) : StreamInv (State.boot bytes start policy) where
  canonical := Buffer.wf_ofBytesAt 0 bytes
  bounded := by simpa using Buffer.within_ofBytesAt 0 bytes
  tiled := by simp [tiles, State.failingOffset, State.consumed]
  inside := by simpa [State.failingOffset, State.consumed] using h
  logged := rfl
  agrees := by simp [statusAgrees, State.failingOffset, State.consumed]

/-- What holds at every moment of a stream over `N` bytes from `start` on: the invariant, the host's
parameters, and at least two bytes for each tuple (R78). -/
structure StreamOver (n start : Nat) (s : State) : Prop where
  inv : StreamInv s
  size_eq : s.size = n
  start_eq : s.start = start
  two_per_tuple : 2 * s.log.length ≤ s.consumed

theorem boot_streamOver (bytes : List Byte) {start : Nat} (policy : C6RegPolicy)
    (h : start ≤ bytes.length) :
    StreamOver bytes.length start (State.boot bytes start policy) :=
  ⟨boot_streamInv bytes policy h, rfl, rfl, by simp⟩

theorem step_keeps_streamOver {n start : Nat} {s s' : State} (hs : StreamOver n start s)
    (h : step s = .next s') : StreamOver n start s' := by
  have hinv := step_keeps_streamInv hs.inv h
  obtain ⟨c, -, ⟨-, rfl⟩ | ⟨e, -, -, rfl⟩ | ⟨i, -, -, -, rfl⟩⟩ := step_eq_next h
  · exact ⟨hinv, hs.size_eq, hs.start_eq, hs.two_per_tuple⟩
  · exact ⟨hinv, hs.size_eq, hs.start_eq, hs.two_per_tuple⟩
  · refine ⟨hinv, hs.size_eq, hs.start_eq, ?_⟩
    have hlog := hs.two_per_tuple
    have hlen := two_le_tupleOf_length c i
    simp only [State.logTuple_log, consumed_logTuple, List.length_append, List.length_singleton]
    omega

/-- A run of the host's start keeps to the stream. -/
theorem run_boot_streamOver {bytes : List Byte} {start k : Nat} {policy : C6RegPolicy} {s : State}
    (h : start ≤ bytes.length)
    (hrun : Host.Core.run Sys2Proof.core k (State.boot bytes start policy) = .next s) :
    StreamOver bytes.length start s :=
  run_keeps (StreamOver bytes.length start) (fun _ _ => step_keeps_streamOver)
    (boot_streamOver bytes policy h) hrun

/-- R156: the log has at most `floor((N - START) / 2)` tuples. -/
theorem StreamOver.log_length_le {n start : Nat} {s : State} (h : StreamOver n start s) :
    s.log.length ≤ (n - start) / 2 := by
  have hin := h.inv.inside
  have htwo := h.two_per_tuple
  rw [State.failingOffset, h.size_eq, h.start_eq] at hin
  omega

theorem StreamInv.not_refused {s : State} (hi : StreamInv s) (r : Refusal) :
    step s ≠ .refused r := by
  intro h
  obtain ⟨c, hr, hc⟩ := step_eq_refused h
  exact absurd hi.inside (by rw [← hi.cursor_eq hr]; omega)

/-- A step that leaves the stream running moves the cursor on by 2 to 6 (R153, R156). -/
theorem cursor_advance_of_running {s s' : State} {c : Nat} (hc : s.cursor = some c)
    (h : step s = .next s') (hr : s'.status = .running) :
    ∃ n, 2 ≤ n ∧ n ≤ 6 ∧ s'.cursor = some (c + n) := by
  obtain ⟨c', ⟨-, hc'⟩, ⟨-, rfl⟩ | ⟨e, -, -, rfl⟩ | ⟨i, -, -, -, rfl⟩⟩ := step_eq_next h
  · simp at hr
  · simp at hr
  · obtain rfl : c' = c := Option.some.inj (hc'.symm.trans hc)
    exact ⟨(tupleOf c' i).length, two_le_tupleOf_length c' i, tupleOf_length_le c' i, by simp⟩

/-- Within `k` steps a stream ends, or it has logged a tuple with each of them. -/
theorem run_ends_or_logs (k : Nat) {s : State} (hi : StreamInv s) :
    ∃ j t, j ≤ k ∧ Host.Core.run Sys2Proof.core j s = .next t ∧
      (t.status ≠ .running ∨ j = k ∧ t.log.length = s.log.length + k) := by
  induction k generalizing s with
  | zero => exact ⟨0, s, le_rfl, rfl, .inr ⟨rfl, rfl⟩⟩
  | succ k ih =>
    by_cases hrun : s.status = .running
    · obtain ⟨s', hs⟩ := step_progress (hi.runsAt hrun) hi.inside
      obtain ⟨c, -, ⟨-, rfl⟩ | ⟨e, -, -, rfl⟩ | ⟨i, -, -, -, rfl⟩⟩ := step_eq_next hs
      · exact ⟨1, _, by omega, run_succ_of_next hs, .inl (by simp)⟩
      · exact ⟨1, _, by omega, run_succ_of_next hs, .inl (by simp)⟩
      · obtain ⟨j, t, hj, ht, hend⟩ := ih (step_keeps_streamInv hi hs)
        refine ⟨j + 1, t, by omega, (run_succ_of_next hs).trans ht, hend.imp id ?_⟩
        rintro ⟨rfl, hlog⟩
        simp only [State.logTuple_log, List.length_append, List.length_singleton] at hlog
        exact ⟨rfl, by omega⟩
    · exact ⟨0, s, Nat.zero_le _, rfl, .inl hrun⟩

/-- Settles O8: the moments of a run are `StreamOver`, and a run that logged a tuple with each of
`floor((N - START) / 2) + 1` steps would exceed the bound on the log. -/
theorem streamEndsWithinBound : Obligations.StreamEndsWithinBound := by
  intro bytes start policy hstart
  refine ⟨fun k s hrun => ?_, ?_⟩
  · have hs := run_boot_streamOver hstart hrun
    refine ⟨hs.log_length_le, hs.inv.not_refused, fun hr => ?_⟩
    have hc := (hs.inv.runsAt hr).2
    refine ⟨s.failingOffset, hc, ?_, ?_, fun s' => cursor_advance_of_running hc⟩
    · exact hs.start_eq ▸ Nat.le_add_right _ _
    · exact hs.size_eq ▸ hs.inv.inside
  · obtain ⟨k, s, hk, hrun, hend⟩ :=
      run_ends_or_logs ((bytes.length - start) / 2 + 1) (boot_streamInv bytes policy hstart)
    refine ⟨k, s, hk, hrun, hend.resolve_right ?_⟩
    rintro ⟨-, hlog⟩
    have := (run_boot_streamOver hstart hrun).log_length_le
    simp only [State.boot_log, List.length_nil] at hlog
    omega

/-! ## The log -/

/-- Tuples that tile start at or after where the tiling starts. -/
theorem le_start_of_tiles {a b : Nat} {ts : List DecodedInstr} (h : tiles a b ts = true) :
    ∀ t ∈ ts, a ≤ t.start := by
  induction ts generalizing a with
  | nil => simp
  | cons u us ih =>
    simp only [tiles, Bool.and_eq_true, beq_iff_eq] at h
    obtain ⟨hu, hus⟩ := h
    intro t ht
    rcases List.mem_cons.1 ht with rfl | ht
    · exact hu.ge
    · exact (Nat.le_add_right _ _).trans (ih hus t ht)

/-- Tuples that tile stand in buffer order. -/
theorem pairwise_of_tiles {a b : Nat} {ts : List DecodedInstr} (h : tiles a b ts = true) :
    ts.Pairwise fun t u => t.start + t.length ≤ u.start := by
  induction ts generalizing a with
  | nil => exact .nil
  | cons t ts ih =>
    simp only [tiles, Bool.and_eq_true, beq_iff_eq] at h
    obtain ⟨rfl, hts⟩ := h
    exact .cons (le_start_of_tiles hts) (ih hts)

/-- Settles O11: by the three ends of a step, and the tiling of the log. -/
theorem logGrowsByOneTuple : Obligations.LogGrowsByOneTuple := by
  refine ⟨fun s s' h => ?_, fun s hi => pairwise_of_tiles hi.tiled⟩
  obtain ⟨c, hr, ⟨-, rfl⟩ | ⟨e, -, -, rfl⟩ | ⟨i, -, -, -, rfl⟩⟩ := step_eq_next h
  · exact ⟨by simp, fun _ => rfl⟩
  · exact ⟨by simp, fun _ => rfl⟩
  · exact ⟨fun _ => ⟨tupleOf c i, rfl, by simpa using hr.2⟩, fun hn => absurd hr.1 hn⟩

/-- Settles O19: the logged tuple is that of a well-formed instruction. -/
theorem loggedTupleHasTheTupleForm : Obligations.LoggedTupleHasTheTupleForm := by
  intro s s' t h hlog
  obtain ⟨c, -, ⟨-, rfl⟩ | ⟨e, -, -, rfl⟩ | ⟨i, hwf, -, -, rfl⟩⟩ := step_eq_next h
  · simp at hlog
  · simp at hlog
  · obtain rfl : tupleOf c i = t := by simpa using hlog
    exact tupleOf_wf c hwf

/-! ## The cursor and the frame -/

/-- Settles O12: by the three ends of a step; a logged instruction has at least two bytes. -/
theorem cursorAdvancesOnlyForward : Obligations.CursorAdvancesOnlyForward := by
  intro s s' c _ hc h
  obtain ⟨c', ⟨-, hc'⟩, hend⟩ := step_eq_next h
  obtain rfl : c' = c := Option.some.inj (hc'.symm.trans hc)
  rcases hend with ⟨rfl, rfl⟩ | ⟨e, hlt, -, rfl⟩ | ⟨i, -, hin, -, rfl⟩
  · exact ⟨le_rfl, .inr (.inl ⟨rfl, hc⟩)⟩
  · exact ⟨hlt.le, .inr (.inr ⟨e, rfl, rfl⟩)⟩
  · have hlen := two_le_tupleOf_length c' i
    exact ⟨by omega, .inl ⟨tupleOf c' i, rfl, by simp, by omega, hin⟩⟩

/-- The three ways a call ends that give a next state (R155). -/
inductive CallEnds (s : State) : State → Prop where
  | finish : CallEnds s s.finish
  | takeError (e : ErrorRecord) : CallEnds s (s.takeError e)
  | logTuple (t : DecodedInstr) : CallEnds s (s.logTuple t)

theorem step_callEnds {s s' : State} (h : step s = .next s') : CallEnds s s' := by
  obtain ⟨c, -, ⟨-, rfl⟩ | ⟨e, -, -, rfl⟩ | ⟨i, -, -, -, rfl⟩⟩ := step_eq_next h
  · exact .finish
  · exact .takeError e
  · exact .logTuple _

theorem exec_callEnds {i : Instr} {s s' : State} (h : exec i s = .next s') : CallEnds s s' := by
  obtain ⟨c, -, ⟨-, rfl⟩ | ⟨p, m, -, rfl⟩ | ⟨shape, -, rfl⟩ | ⟨-, rfl⟩⟩ := exec_eq_next h
  · exact .finish
  · exact .takeError _
  · exact .takeError _
  · exact .logTuple _

/-- Settles O13: a step and an instruction end as a call ends, and none of its ends touches the
buffer or the parameters. -/
theorem onlyTheStreamStateChanges : Obligations.OnlyTheStreamStateChanges := by
  intro s s' h
  have hends : CallEnds s s' := by
    rcases h with h | ⟨i, h⟩
    · exact step_callEnds h
    · exact exec_callEnds h
  cases hends with
  | finish => exact ⟨rfl, rfl, rfl, rfl, fun _ => rfl, .inl rfl⟩
  | takeError e => exact ⟨rfl, rfl, rfl, rfl, fun _ => rfl, .inr (.inl ⟨e, rfl⟩)⟩
  | logTuple t => exact ⟨rfl, rfl, rfl, rfl, fun _ => rfl, .inr (.inr ⟨t, rfl⟩)⟩

end Sys2Proof.Machine

/-! # Proofs: the bytes of the buffer and of 16-bit fields (20_memory.md) -/

namespace Sys2Proof

/-! ## Byte order -/

/-- R42: the value of a 16-bit field, by its two bytes. -/
theorem toNat_le16 (lo hi : Byte) : (le16 lo hi).toNat = lo.toNat + 256 * hi.toNat := by
  have happend : (le16 lo hi).toNat = hi.toNat <<< 8 ||| lo.toNat := BitVec.toNat_append hi lo
  rw [happend, ← Nat.shiftLeft_add_eq_or_of_lt lo.isLt, Nat.shiftLeft_eq]
  omega

/-- R42: the bytes an encoding writes for a 16-bit field give its value back. -/
theorem toNat_eq_lowByte_add_highByte (v : Word) :
    v.toNat = (lowByte v).toNat + 256 * (highByte v).toNat := by
  rw [← toNat_le16, le16_lowByte_highByte]

end Sys2Proof

namespace Sys2Proof.Machine

/-- Settles O30: a field read from the buffer or taken by the decoder is `le16` of its two bytes, and
the two bytes an encoding writes are those `le16` puts together. -/
theorem fieldsAreLittleEndian : Obligations.FieldsAreLittleEndian :=
  ⟨toNat_le16, fun buf a => toNat_le16 (buf.read a) (buf.read (a + 1)), takeWord_cons_cons,
    fun v => ⟨lowByte v, highByte v, rfl, toNat_eq_lowByte_add_highByte v⟩⟩

end Sys2Proof.Machine

/-! # Proofs: the encoding (30_encoding.md) -/

namespace Sys2Proof

/-! ## Decoding what is encoded -/

/-- R60: a well-formed instruction decodes from its encoding, whatever bytes follow. -/
theorem decode_encode {policy : C6RegPolicy} {i : Instr} (rest : List Byte)
    (h : i.wellFormed policy = true) : decode policy (encode i ++ rest) = .ok (i, rest) := by
  cases i with
  | movRm8R8 reg o
  | movRm16R16 reg o
  | movR8Rm8 reg o
  | movR16Rm16 reg o =>
    have ho := decodeRmField_dispBytes .rm reg o rest h
    simp [encode, encodeRegMem, decode, decodeRegMem, regMemInstr, bind, Except.bind, ho]
  | movRm8Imm8 reg o v
  | movRm16Imm16 reg o v =>
    obtain ⟨hwf, hreg⟩ := Bool.and_eq_true_iff.1 h
    have ho := fun tail => decodeRmField_dispBytes .irm reg o tail hwf
    simp [encode, encodeImmRm, decode, decodeImmRm, bind, Except.bind,
      Machine.accepts_of_wellFormed hreg, ho]
  | movR8Imm8 code v
  | movR16Imm16 code v => simp [encode, decode, decodeImmReg, bind, Except.bind]
  | movAlMoffs8 addr
  | movAxMoffs16 addr => simp [encode, decode, decodeMemAcc, bind, Except.bind]
  | movMoffs8Al addr
  | movMoffs16Ax addr => simp [encode, decode, decodeAccMem, bind, Except.bind]

/-- Settles O15: each field of the encoding reads back, shape by shape. -/
theorem decodeOfEncodeIsIdentity : Obligations.DecodeOfEncodeIsIdentity :=
  fun _ _ rest h => decode_encode rest h

/-! ## Encoding what is decoded -/

theorem bind_eq_ok {ε α β : Type} {x : Except ε α} {f : α → Except ε β} {r : β}
    (h : x >>= f = .ok r) : ∃ a, x = .ok a ∧ f a = .ok r := by
  cases x with
  | error e => cases h
  | ok a => exact ⟨a, rfl, h⟩

theorem encode_regMemInstr (d : Direction) (w : Width) (reg : RegCode) (o : RmField) :
    encode (regMemInstr d w reg o) = encodeRegMem d w reg o := by
  cases d <;> cases w <;> rfl

/-- A verdict has one leading byte. -/
theorem lead_eq_of_classify {b b0 : Byte} {k : Classified} (h : classify b0 = k)
    (hb : k.lead = some b) : b = b0 :=
  Option.some.inj (hb.symm.trans (lead_of_classify h (by rintro rfl; cases hb)))

section
variable {policy : C6RegPolicy} {w : Width} {bs rest : List Byte} {i : Instr}

/-- Shape `RM` (R100). -/
theorem encode_of_decodeRegMem {d : Direction} (h : decodeRegMem d w bs = .ok (i, rest)) :
    regMemLead d w :: bs = encode i ++ rest ∧ i.wellFormed policy = true := by
  obtain ⟨⟨m, bs₁⟩, hm, h⟩ := bind_eq_ok h
  obtain ⟨⟨o, bs₂⟩, ho, h⟩ := bind_eq_ok h
  cases h
  obtain ⟨hbs, hx, hwf⟩ := decodeRmField_eq_ok ho
  simp [takeByte_eq_ok hm, hbs, encode_regMemInstr, encodeRegMem, hx, hwf]

/-- Shape `IRM` (R120), whose reg field the policy accepts (R76). -/
theorem encode_of_decodeImmRm {b0 : Byte} (h : decodeImmRm policy b0 w bs = .ok (i, rest)) :
    immRmLead w :: bs = encode i ++ rest ∧ i.wellFormed policy = true := by
  obtain ⟨⟨m, bs₁⟩, hm, h⟩ := bind_eq_ok h
  dsimp only at h
  split at h
  · next hacc =>
    obtain ⟨⟨o, bs₂⟩, ho, h⟩ := bind_eq_ok h
    obtain ⟨hbs, hx, hwf⟩ := decodeRmField_eq_ok ho
    have hw := Bool.and_eq_true_iff.2 ⟨hwf, Machine.wellFormed_of_accepts hacc⟩
    have hhead : bs = (o.modrm (ModRM.ofByte m).reg).toByte :: (o.dispBytes ++ bs₂) := by
      rw [takeByte_eq_ok hm, hx, ModRM.toByte_ofByte, ← hbs]
    cases w with
    | byte =>
      obtain ⟨⟨v, bs₃⟩, hv, h⟩ := bind_eq_ok h
      cases h
      obtain rfl : bs₂ = v :: bs₃ := takeByte_eq_ok hv
      exact ⟨by simp [encode, encodeImmRm, hhead], hw⟩
    | word =>
      obtain ⟨⟨v, bs₃⟩, hv, h⟩ := bind_eq_ok h
      cases h
      obtain rfl : bs₂ = wordBytes v ++ bs₃ := takeWord_eq_ok hv
      exact ⟨by simp [encode, encodeImmRm, hhead], hw⟩
  · cases h

/-- Shape `IR` (R123). -/
theorem encode_of_decodeImmReg {code : RegCode} (h : decodeImmReg w code bs = .ok (i, rest)) :
    immRegLead w code :: bs = encode i ++ rest ∧ i.wellFormed policy = true := by
  cases w with
  | byte =>
    obtain ⟨⟨v, bs₁⟩, hv, h⟩ := bind_eq_ok h
    cases h
    exact ⟨by rw [takeByte_eq_ok hv]; rfl, rfl⟩
  | word =>
    obtain ⟨⟨v, bs₁⟩, hv, h⟩ := bind_eq_ok h
    cases h
    exact ⟨by rw [takeWord_eq_ok hv]; rfl, rfl⟩

/-- Shape `MA` (R140). -/
theorem encode_of_decodeMemAcc (h : decodeMemAcc w bs = .ok (i, rest)) :
    memAccLead w :: bs = encode i ++ rest ∧ i.wellFormed policy = true := by
  obtain ⟨⟨addr, bs₁⟩, ha, h⟩ := bind_eq_ok h
  rw [takeWord_eq_ok ha]
  cases w <;> cases h <;> exact ⟨rfl, rfl⟩

/-- Shape `AM` (R140). -/
theorem encode_of_decodeAccMem (h : decodeAccMem w bs = .ok (i, rest)) :
    accMemLead w :: bs = encode i ++ rest ∧ i.wellFormed policy = true := by
  obtain ⟨⟨addr, bs₁⟩, ha, h⟩ := bind_eq_ok h
  rw [takeWord_eq_ok ha]
  cases w <;> cases h <;> exact ⟨rfl, rfl⟩

/-- R60: what decodes is the encoding of a well-formed instruction, and the bytes after it. -/
theorem encode_of_decode (h : decode policy bs = .ok (i, rest)) :
    bs = encode i ++ rest ∧ i.wellFormed policy = true := by
  cases bs with
  | nil => cases h
  | cons b0 bs =>
    simp only [decode] at h
    split at h
    · next hk => obtain rfl := lead_eq_of_classify hk rfl; exact encode_of_decodeRegMem h
    · next hk => obtain rfl := lead_eq_of_classify hk rfl; exact encode_of_decodeImmRm h
    · next hk => obtain rfl := lead_eq_of_classify hk rfl; exact encode_of_decodeImmReg h
    · next hk => obtain rfl := lead_eq_of_classify hk rfl; exact encode_of_decodeMemAcc h
    · next hk => obtain rfl := lead_eq_of_classify hk rfl; exact encode_of_decodeAccMem h
    · cases h

end

/-- Settles O16: the leading byte is that of its verdict, and each field is the bytes it was read
from. -/
theorem decodedBytesAreTheEncoding : Obligations.DecodedBytesAreTheEncoding :=
  fun _ _ _ _ h => encode_of_decode h

/-- Settles O14: the decoder runs on the ten words. -/
theorem specWordsDecode : Obligations.SpecWordsDecode :=
  ⟨rfl, rfl, rfl, rfl, rfl, rfl, rfl, rfl, rfl, rfl⟩

/-! ## The classifier -/

/-- A test of R62: mask, value and verdict. -/
abbrev ClassifierTest := Byte × Byte × (Byte → Classified)

/-- R62: the five tests, in the order of the rule. -/
def classifierTests : List ClassifierTest :=
  [(0xFC, 0x88, fun b => .rm (.ofBit (b.getLsbD 1)) (.ofBit (b.getLsbD 0))),
   (0xFE, 0xC6, fun b => .irm (.ofBit (b.getLsbD 0))),
   (0xF0, 0xB0, fun b => .ir (.ofBit (b.getLsbD 3)) (b.extractLsb' 0 3)),
   (0xFE, 0xA0, fun b => .ma (.ofBit (b.getLsbD 0))),
   (0xFE, 0xA2, fun b => .am (.ofBit (b.getLsbD 0)))]

/-- No byte passes both tests (R63). -/
def TestsDisjoint (p q : ClassifierTest) : Prop :=
  ∀ b : Byte, ¬(b &&& p.1 = p.2.1 ∧ b &&& q.1 = q.2.1)

theorem testsDisjoint_symm : Std.Symm TestsDisjoint := ⟨fun _ _ h b hb => h b hb.symm⟩

theorem classifierTests_pairwise : classifierTests.Pairwise TestsDisjoint := by
  unfold TestsDisjoint
  decide

/-- R63: at most one test succeeds on a byte. -/
theorem succeedingTests_subsingleton (b : Byte) :
    {p ∈ classifierTests | decide (b &&& p.1 = p.2.1)}.Subsingleton := by
  rintro p ⟨hp, hbp⟩ q ⟨hq, hbq⟩
  by_contra hne
  have := testsDisjoint_symm
  exact classifierTests_pairwise.forall hp hq hne b
    ⟨of_decide_eq_true hbp, of_decide_eq_true hbq⟩

/-- The verdict of the first test of a list that succeeds. -/
def firstVerdict (tests : List ClassifierTest) (b : Byte) : Classified :=
  (tests.find? fun p => decide (b &&& p.1 = p.2.1)).elim .unrecognized fun p => p.2.2 b

theorem firstVerdict_cons (p : ClassifierTest) (tests : List ClassifierTest) (b : Byte) :
    firstVerdict (p :: tests) b = if b &&& p.1 = p.2.1 then p.2.2 b else firstVerdict tests b := by
  split_ifs with h
  · simp [firstVerdict, h]
  · simp [firstVerdict, h]

/-- R62: the classifier makes the tests in the order of the list. -/
theorem firstVerdict_classifierTests (b : Byte) : firstVerdict classifierTests b = classify b := by
  simp only [classifierTests, firstVerdict_cons]
  rfl

/-- Settles O21: at most one test succeeds on a byte, so a permutation finds the same one. -/
theorem testOrderDoesNotMatter : Obligations.TestOrderDoesNotMatter := by
  refine ⟨classifierTests_pairwise, fun order horder b => ?_⟩
  rw [← List.find?_eq_find?_of_perm horder.symm (succeedingTests_subsingleton b)]
  exact firstVerdict_classifierTests b

/-- R61: the leading bytes of each shape. -/
theorem classify_shape_iff (b0 : Byte) :
    ((classify b0).shape = .rm ↔ 0x88 ≤ b0.toNat ∧ b0.toNat ≤ 0x8B) ∧
    ((classify b0).shape = .irm ↔ 0xC6 ≤ b0.toNat ∧ b0.toNat ≤ 0xC7) ∧
    ((classify b0).shape = .ir ↔ 0xB0 ≤ b0.toNat ∧ b0.toNat ≤ 0xBF) ∧
    ((classify b0).shape = .ma ↔ 0xA0 ≤ b0.toNat ∧ b0.toNat ≤ 0xA1) ∧
    ((classify b0).shape = .am ↔ 0xA2 ≤ b0.toNat ∧ b0.toNat ≤ 0xA3) := by
  revert b0
  decide

/-- Settles O20: the encoder's leading bytes classify back, and every byte has the shape of its
range. -/
theorem fiveLeadingByteFormats : Obligations.FiveLeadingByteFormats :=
  ⟨classify_regMemLead, classify_immRmLead, classify_immRegLead, classify_memAccLead,
    classify_accMemLead, classify_shape_iff⟩

/-! ## The mod/reg/rm byte -/

/-- Settles O23: a field is the byte shifted down and cut to the field's width. -/
theorem modRegRmFieldPositions : Obligations.ModRegRmFieldPositions := by
  refine ⟨fun m => ⟨?_, ?_, rfl⟩, rfl, rfl, rfl, rfl⟩
  · have := m.isLt
    simp only [ModRM.ofByte, BitVec.extractLsb'_toNat, Nat.shiftRight_eq_div_pow]
    omega
  · simp [ModRM.ofByte, Nat.shiftRight_eq_div_pow]

/-- Settles O24: one branch of `decodeRmField` for each clause. -/
theorem modSelectsTheAddressingForm : Obligations.ModSelectsTheAddressingForm :=
  fun _ _ _ _ _ _ _ => ⟨rfl, fun h => if_neg h, rfl, rfl, rfl, rfl, rfl, rfl, rfl, rfl⟩

/-- R65, R66: the mod and rm fields of a based operand. -/
theorem decodeRmField_based {shape : Shape} {x : ModRM} {bs rest : List Byte} {rm : RegCode}
    {d : Disp} (h : decodeRmField shape x bs = .ok (.mem (.based rm d), rest)) :
    rm = x.rm ∧ x.mod ≠ 0b11 ∧ (rm = 0b110 → x.mod ≠ 0b00) := by
  obtain ⟨-, hx, hwf⟩ := decodeRmField_eq_ok h
  rw [← hx]
  cases d with
  | noDisp =>
    have hrm : rm ≠ 6#3 := by simpa [RmField.wellFormed, EA.wellFormed] using hwf
    simp [RmField.modrm, RmField.mod, RmField.rm, hrm]
  | disp8 raw => simp [RmField.modrm, RmField.mod, RmField.rm]
  | disp16 raw => simp [RmField.modrm, RmField.mod, RmField.rm]

end Sys2Proof

namespace Sys2Proof.Machine

/-! ## The tables -/

theorem regName_injective {code code' : RegCode} {w w' : Width}
    (h : regName code w = regName code' w') : code = code' ∧ w = w' := by
  revert code code'
  cases w <;> cases w' <;> decide

/-- Settles O25: the 16 entries, and that no two of them are equal. -/
theorem registerTableIsInjective : Obligations.RegisterTableIsInjective :=
  ⟨rfl, rfl, fun _ _ _ _ h => regName_injective h⟩

/-- Settles O26: the table entry by entry, and the fields a based operand re-encodes to. -/
theorem effectiveAddressTable : Obligations.EffectiveAddressTable :=
  ⟨rfl, fun _ _ _ _ _ _ h => decodeRmField_based h⟩

/-! ## Displacements and immediates -/

/-- R71: the signed value of an 8-bit displacement. -/
theorem dispValue_disp8 (raw : Byte) : dispValue (.disp8 raw) =
    if raw.toNat < 128 then (raw.toNat : Int) else (raw.toNat : Int) - 256 := by
  rw [dispValue, BitVec.toInt_eq_toNat_cond]
  split_ifs <;> omega

/-- Settles O27: the raw fields are read back whole, and the values are `toInt` at 8 bits and
`toNat` at 16. -/
theorem displacementValues : Obligations.DisplacementValues := by
  refine ⟨fun _ _ _ _ _ _ _ => ⟨rfl, rfl⟩, fun raw8 => ⟨?_, ?_, dispValue_disp8 raw8, ?_⟩,
    fun raw16 => ⟨rfl, ?_⟩, rfl, rfl, rfl⟩
  · exact raw8.le_toInt
  · exact Int.le_of_lt_add_one raw8.toInt_lt
  · exact BitVec.toInt_signExtend_of_le (by decide)
  · have := raw16.isLt
    rw [dispValue]
    omega

/-- Settles O28: `ReadImm` after its `need`, and the widths of the raw fields. -/
theorem immediateFieldsAreUnsigned : Obligations.ImmediateFieldsAreUnsigned :=
  ⟨fun _ _ _ shape => ⟨readImmAt_byte_ok shape, readImmAt_word_ok shape,
      readImmAt_error (w := .byte) shape, readImmAt_error (w := .word) shape⟩,
    fun raw => ⟨rfl, raw.isLt⟩, fun raw => ⟨rfl, raw.isLt⟩⟩

end Sys2Proof.Machine

/-! # Proofs: register/memory moves (40_mov_regmem.md) -/

namespace Sys2Proof.Machine

/-- R172: a call whose bytes do not all lie below `N`. -/
theorem completeCall_truncated {s : State} {t : DecodedInstr} (h : s.size < t.start + t.length) :
    completeCall s t = .next (s.takeError (.truncatedInstruction t.shape s.size)) := if_pos h

/-! ## The call of shape `RM`, once for both directions and both widths (R100) -/

theorem exec_regMemInstr (d : Direction) (w : Width) (reg : RegCode) (o : RmField) :
    exec (regMemInstr d w reg o) = regMemCall d w reg o := by
  cases d <;> cases w <;> rfl

section
variable {s : State} {c : Nat} {reg : RegCode} {o : RmField}

/-- R153: `o` need not be well formed. -/
theorem exec_regMem_fits (d : Direction) (w : Width) (h : s.runsAt c)
    (hl : c + (2 + o.dispLength) ≤ s.size) :
    exec (regMemInstr d w reg o) s = .next (s.logTuple (regMemTuple d w reg o c)) := by
  rw [exec_regMemInstr, regMemCall, beginCall_inside h (by omega)]
  exact completeCall_fits hl

theorem exec_regMem_truncated (d : Direction) (w : Width) (h : s.runsAt c) (hc : c < s.size)
    (hl : s.size < c + (2 + o.dispLength)) :
    exec (regMemInstr d w reg o) s = .next (s.takeError (.truncatedInstruction .rm s.size)) := by
  rw [exec_regMemInstr, regMemCall, beginCall_inside h hc]
  exact completeCall_truncated hl

end

/-- Settles O31: each instruction is `regMemInstr` at one direction and width, where the call and the
encoding are those of the shape. -/
theorem regMemMovesLogTheirTuple : Obligations.RegMemMovesLogTheirTuple := by
  intro s c reg o h hc
  refine ⟨fun hl => ⟨?_, ?_, ?_, ?_⟩, ?_, rfl, rfl, rfl, rfl⟩
  · exact exec_regMem_fits .regIsSource .byte h hl
  · exact exec_regMem_fits .regIsSource .word h hl
  · exact exec_regMem_fits .regIsDest .byte h hl
  · exact exec_regMem_fits .regIsDest .word h hl
  · simp only [List.forall_mem_cons]
    exact ⟨⟨rfl, exec_regMem_truncated .regIsSource .byte h hc⟩,
      ⟨rfl, exec_regMem_truncated .regIsSource .word h hc⟩,
      ⟨rfl, exec_regMem_truncated .regIsDest .byte h hc⟩,
      ⟨rfl, exec_regMem_truncated .regIsDest .word h hc⟩, List.forall_mem_nil _⟩

end Sys2Proof.Machine

/-! # Proofs: moves of an immediate (41_mov_immediate.md) -/

namespace Sys2Proof.Machine

section
variable {s : State} {c : Nat}

/-! ## The call of shape `IRM`, once for both widths (R120): its ends in the order they are tried -/

section
variable {reg : RegCode} {o : RmField}

theorem immRmCall_no_modrm (w : Width) (i : Imm) (h : s.runsAt c) (hc : c < s.size)
    (hm : s.size < c + 2) :
    immRmCall w reg o i s = .next (s.takeError (.truncatedInstruction .irm s.size)) := by
  rw [immRmCall, beginCall_inside h hc, if_pos hm]

/-- R76: the reg field is looked at before any byte after the mod/reg/rm byte. -/
theorem immRmCall_rejected (w : Width) (i : Imm) (h : s.runsAt c) (hm : c + 2 ≤ s.size)
    (hacc : s.policy.accepts reg = false) :
    immRmCall w reg o i s =
      .next (s.takeError (.unrecognizedOpcode c (immRmLead w) (some (o.modrm reg).toByte))) := by
  rw [immRmCall, beginCall_inside h (by omega), if_neg (by omega),
    if_neg (Bool.eq_false_iff.1 hacc)]

theorem immRmCall_accepted (w : Width) (i : Imm) (h : s.runsAt c) (hm : c + 2 ≤ s.size)
    (hacc : s.policy.accepts reg = true) :
    immRmCall w reg o i s = completeCall s (immRmTuple w reg o i c) := by
  rw [immRmCall, beginCall_inside h (by omega), if_neg (by omega), if_pos hacc]

/-- R172: with an accepted reg field it is one error, whichever byte is the first one missing. -/
theorem immRmCall_truncated (w : Width) (i : Imm) (h : s.runsAt c) (hc : c < s.size)
    (hacc : s.policy.accepts reg = true) (hl : s.size < c + (2 + o.dispLength + w.bytes)) :
    immRmCall w reg o i s = .next (s.takeError (.truncatedInstruction .irm s.size)) := by
  rcases Nat.lt_or_ge s.size (c + 2) with hm | hm
  · exact immRmCall_no_modrm w i h hc hm
  · rw [immRmCall_accepted w i h hm hacc]
    exact completeCall_truncated hl

/-- R153: `o` need not be well formed. -/
theorem immRmCall_fits (w : Width) (i : Imm) (h : s.runsAt c)
    (hacc : s.policy.accepts reg = true) (hl : c + (2 + o.dispLength + w.bytes) ≤ s.size) :
    immRmCall w reg o i s = .next (s.logTuple (immRmTuple w reg o i c)) := by
  rw [immRmCall_accepted w i h (by omega) hacc]
  exact completeCall_fits hl

end

/-! ## The call of shape `IR` (R123): every end but `Ok` is a missing byte -/

theorem immRegCall_truncated (w : Width) (code : RegCode) (i : Imm) (h : s.runsAt c)
    (hc : c < s.size) (hl : s.size < c + (1 + w.bytes)) :
    immRegCall w code i s = .next (s.takeError (.truncatedInstruction .ir s.size)) := by
  rw [immRegCall, beginCall_inside h hc]
  exact completeCall_truncated hl

end

theorem immRegLead_byte (code : RegCode) :
    immRegLead .byte code = BitVec.ofNat 8 (0xB0 + code.toNat) := by
  revert code; decide

theorem immRegLead_word (code : RegCode) :
    immRegLead .word code = BitVec.ofNat 8 (0xB8 + code.toNat) := by
  revert code; decide

/-- Settles O32: at each width `exec` is the call of the shape, whose ends are tried in the order of
R120; which reg fields pass the second test is `accepts_eq_false_iff`. -/
theorem immediateToRmMovesLogTheirTuple : Obligations.ImmediateToRmMovesLogTheirTuple := by
  intro s c reg o v8 v16 h hc
  refine ⟨fun hm => ⟨?_, ?_⟩, fun hm hreg hpol => ?_, fun hfield => ?_, rfl, rfl, rfl, rfl⟩
  · exact immRmCall_no_modrm .byte (.imm8 v8) h hc hm
  · exact immRmCall_no_modrm .word (.imm16 v16) h hc hm
  · have hacc := (accepts_eq_false_iff s.policy reg).2 ⟨hreg, hpol⟩
    exact ⟨immRmCall_rejected .byte (.imm8 v8) h hm hacc,
      immRmCall_rejected .word (.imm16 v16) h hm hacc⟩
  · have hacc : s.policy.accepts reg = true := accepts_of_wellFormed (by simpa using hfield)
    exact ⟨immRmCall_truncated .byte (.imm8 v8) h hc hacc,
      immRmCall_truncated .word (.imm16 v16) h hc hacc,
      immRmCall_fits .byte (.imm8 v8) h hacc,
      immRmCall_fits .word (.imm16 v16) h hacc⟩

/-- Settles O33: every `IR` instruction is well formed, so `exec_fits` logs it where it fits. -/
theorem immediateToRegisterMovesLogTheirTuple :
    Obligations.ImmediateToRegisterMovesLogTheirTuple := by
  intro s c code v8 v16 h hc
  refine ⟨?_, ?_, ?_, ?_, rfl, rfl, ?_, ?_⟩
  · exact exec_fits (i := .movR8Imm8 code v8) h rfl
  · exact exec_fits (i := .movR16Imm16 code v16) h rfl
  · exact immRegCall_truncated .byte code (.imm8 v8) h hc
  · exact immRegCall_truncated .word code (.imm16 v16) h hc
  · exact congrArg (· :: [v8]) (immRegLead_byte code)
  · exact congrArg (· :: wordBytes v16) (immRegLead_word code)

end Sys2Proof.Machine

/-! # Proofs: accumulator moves (42_mov_accumulator.md) -/

namespace Sys2Proof.Machine

/-! ## The calls of shapes `MA` and `AM` (R140): every end but `Ok` is a missing address byte -/

section
variable {s : State} {c : Nat}

theorem memAccCall_truncated (w : Width) (addr : Word) (h : s.runsAt c) (hc : c < s.size)
    (hl : s.size < c + 3) :
    memAccCall w addr s = .next (s.takeError (.truncatedInstruction .ma s.size)) := by
  rw [memAccCall, beginCall_inside h hc]
  exact completeCall_truncated hl

theorem accMemCall_truncated (w : Width) (addr : Word) (h : s.runsAt c) (hc : c < s.size)
    (hl : s.size < c + 3) :
    accMemCall w addr s = .next (s.takeError (.truncatedInstruction .am s.size)) := by
  rw [accMemCall, beginCall_inside h hc]
  exact completeCall_truncated hl

end

/-- Settles O34: every accumulator move is well formed, so `exec_fits` logs it where it fits; where
it does not, the call is that of its shape at its width. -/
theorem accumulatorMovesLogTheirTuple : Obligations.AccumulatorMovesLogTheirTuple := by
  intro s c addr h hc
  refine ⟨fun hl => ⟨?_, ?_, ?_, ?_⟩, fun hl => ⟨?_, ?_⟩, fun _ _ => rfl, rfl, rfl, rfl, rfl⟩
  · exact exec_fits (i := .movAlMoffs8 addr) h rfl hl
  · exact exec_fits (i := .movAxMoffs16 addr) h rfl hl
  · exact exec_fits (i := .movMoffs8Al addr) h rfl hl
  · exact exec_fits (i := .movMoffs16Ax addr) h rfl hl
  · simp only [List.forall_mem_cons]
    exact ⟨memAccCall_truncated .byte addr h hc hl, memAccCall_truncated .word addr h hc hl,
      List.forall_mem_nil _⟩
  · simp only [List.forall_mem_cons]
    exact ⟨accMemCall_truncated .byte addr h hc hl, accMemCall_truncated .word addr h hc hl,
      List.forall_mem_nil _⟩

end Sys2Proof.Machine


/-! # Proofs: the decode call (49_decode_call.md)

A step of a running stream is read off where the cursor stands (past `N`, at `N`, below it) and,
below `N`, off what `decode` answers on the fetched bytes (`step_eq_exec`, `step_eq_reportError`). -/

namespace Sys2Proof.Machine

section
variable {s : State} {c : Nat}

/-! ## The step by where the cursor stands -/

/-- R152. -/
theorem step_past_end (h : s.runsAt c) (hc : s.size < c) : step s = .refused .cursorPastEnd := by
  rw [step, beginCall_runsAt h, if_pos hc]

/-- R151. -/
theorem step_at_end (h : s.runsAt s.size) : step s = .next s.finish := by
  rw [step, beginCall_runsAt h, if_neg (lt_irrefl _), if_pos rfl]

/-- R155: only a running stream steps. -/
theorem status_of_step_eq_next {s' : State} (h : step s = .next s') : s.status = .running := by
  obtain ⟨c, hr, -⟩ := step_eq_next h
  exact hr.1

theorem decodeOne_past_end {buf : Buffer} {n : Nat} {policy : C6RegPolicy} (hc : n < c) :
    decodeOne buf n policy c = .refused := if_pos hc

theorem decodeOne_at_end (buf : Buffer) (n : Nat) (policy : C6RegPolicy) :
    decodeOne buf n policy n = .done := by
  rw [decodeOne, if_neg (lt_irrefl n), if_pos rfl]

/-- Settles O7: the cursor stands past `N`, at `N`, or below it, where `step_inside` has the two
answers `DecodeOne` can give. -/
theorem stepAgreesWithDecodeStream : Obligations.StepAgreesWithDecodeStream := by
  refine ⟨fun s c h => ?_, fun s s' hs hstep => hs (status_of_step_eq_next hstep)⟩
  rcases Nat.lt_trichotomy c s.size with hc | rfl | hc
  · rcases step_inside h hc with ⟨e, hd, hs⟩ | ⟨i, -, -, hd, hs⟩
    · rw [hd, hs]; rfl
    · rw [hd, hs, State.logTuple, tupleOf_start]
  · rw [decodeOne_at_end, step_at_end h]; rfl
  · rw [decodeOne_past_end hc, step_past_end h hc]

/-! ## The step by what the decoder answers -/

theorem step_eq_exec {i : Instr} {rest : List Byte} (h : s.runsAt c) (hc : c < s.size)
    (hd : decode s.policy (s.fetch c 6) = .ok (i, rest)) : step s = exec i s := by
  rw [step, beginCall_inside h hc, show Config.maxLength = 6 from rfl, hd]

theorem step_eq_reportError {e : DecodeError} (h : s.runsAt c) (hc : c < s.size)
    (hd : decode s.policy (s.fetch c 6) = .error e) : step s = reportError s c e := by
  rw [step, beginCall_inside h hc, show Config.maxLength = 6 from rfl, hd]

/-- Settles O5: below `N` the call runs its body, which is `exec` of the decoded instruction. -/
theorem stepRunsDecodedInstruction : Obligations.StepRunsDecodedInstruction :=
  fun _ _ _ _ => step_eq_exec

/-- An instruction decoded from the fetch lies below `N` with all its bytes, so its call logs its
tuple. -/
theorem step_of_decode_ok {i : Instr} {rest : List Byte} (h : s.runsAt c) (hc : c < s.size)
    (hd : decode s.policy (s.fetch c 6) = .ok (i, rest)) :
    step s = .next (s.logTuple (tupleOf c i)) := by
  obtain ⟨hbytes, hwf⟩ := encode_of_decode hd
  obtain ⟨-, hin⟩ := State.bytesAt_of_fetch hbytes hc.le
  rw [length_encode c] at hin
  rw [step_eq_exec h hc hd, exec_fits h hwf hin]

/-- The decoder reads an instruction whose encoding stands at `c`, below `N`. -/
theorem decode_fetch_of_bytesAt {i : Instr} (hwf : i.wellFormed s.policy = true)
    (hin : c + (encode i).length ≤ s.size)
    (hbytes : s.buf.bytesAt c (encode i).length = encode i) :
    ∃ rest, decode s.policy (s.fetch c 6) = .ok (i, rest) := by
  have hlen : (encode i).length ≤ 6 := (Laws.EncodedLength.all i).2
  rw [State.fetch_eq_append hlen hin, hbytes]
  exact ⟨_, decode_encode _ hwf⟩

/-- Settles O6: the encoding at the cursor decodes to the instruction, whose tuple is logged. -/
theorem stepRunsEncodedInstruction : Obligations.StepRunsEncodedInstruction := by
  intro s c i h hwf hin hbytes
  have hc : c < s.size := by have := (Laws.EncodedLength.all i).1; omega
  obtain ⟨rest, hd⟩ := decode_fetch_of_bytesAt hwf hin hbytes
  refine ⟨step_eq_exec h hc hd, tupleOf c i, tupleOf_start c i,
    (length_encode c i).symm, encodeTuple_tupleOf c i, ?_⟩
  rw [step_of_decode_ok h hc hd, State.logTuple, tupleOf_start]

end

/-! ## A placed word (log entry 10) -/

theorem decodeTableWord_eq_some {nbits w : Nat} {i : Instr} (h : decodeTableWord nbits w = some i) :
    ∃ rest, decode .reject (tableBytes nbits w) = .ok (i, rest) := by
  unfold decodeTableWord at h
  split at h
  · next hd => cases h; exact ⟨_, hd⟩
  · cases h

@[simp] theorem length_tableBytes (nbits w : Nat) : (tableBytes nbits w).length = 6 := by
  simp [tableBytes, Config.maxLength]

theorem State.withFetchWord_runsAt (s : State) (nbits w : Nat) :
    (s.withFetchWord nbits w).runsAt (s.cursor.getD s.start) := ⟨rfl, rfl⟩

theorem State.withFetchWord_size_ge (s : State) (nbits w : Nat) :
    s.cursor.getD s.start + 6 ≤ (s.withFetchWord nbits w).size := le_max_right _ _

@[simp] theorem State.withFetchWord_policy (s : State) (nbits w : Nat) :
    (s.withFetchWord nbits w).policy = s.policy := rfl

/-- The next step fetches exactly the placed bytes. -/
theorem State.fetch_withFetchWord {s : State} (h : s.buf.wf = true) (nbits w : Nat) :
    (s.withFetchWord nbits w).fetch (s.cursor.getD s.start) 6 = tableBytes nbits w := by
  have hplaced := Buffer.bytesAt_writeBytes h (s.cursor.getD s.start) (tableBytes nbits w)
  rw [length_tableBytes] at hplaced
  rw [State.fetch_eq_append le_rfl (s.withFetchWord_size_ge nbits w)]
  exact (congrArg (· ++ _) hplaced).trans (List.append_nil _)

/-- Settles O51: the step fetches the placed bytes, which decode to the instruction. -/
theorem placedWordRunsNext : Obligations.PlacedWordRunsNext := by
  intro s nbits w i hbuf hpol hw
  obtain ⟨rest, hd⟩ := decodeTableWord_eq_some hw
  rw [← State.fetch_withFetchWord hbuf, ← hpol, ← s.withFetchWord_policy nbits w] at hd
  have hrun := s.withFetchWord_runsAt nbits w
  have hsize := s.withFetchWord_size_ge nbits w
  exact ⟨step_eq_exec hrun (by omega) hd,
    tupleOf _ i, step_of_decode_ok hrun (by omega) hd⟩

/-! ## What a call depends on -/

/-- The fetch depends only on `N` and on the bytes of its window that lie below `N`. -/
theorem State.fetch_congr {s₁ s₂ : State} (hsize : s₁.size = s₂.size) {a n : Nat}
    (h : ∀ k, a ≤ k → k < a + n → k < s₁.size → s₁.buf.read k = s₂.buf.read k) :
    s₁.fetch a n = s₂.fetch a n := by
  induction n generalizing a with
  | zero => rfl
  | succ n ih =>
    by_cases ha : a < s₁.size
    · rw [State.fetch_lt n ha, State.fetch_lt n (hsize ▸ ha), h a le_rfl (by omega) ha,
        ih fun k hk hn hlt => h k (by omega) (by omega) hlt]
    · rw [State.fetch_ge _ (by omega), State.fetch_ge _ (by omega)]

/-- Settles O48: at or past `N` no byte is read; below it the two fetches are equal, so the decoder
gives both calls one answer, and the answer fixes how each ends. -/
theorem decodingIsContextFree : Obligations.DecodingIsContextFree := by
  intro s₁ s₂ c h₁ h₂ hsize hpol hbytes
  rcases Nat.lt_trichotomy c s₁.size with hc | rfl | hc
  · have hc₂ : c < s₂.size := hsize ▸ hc
    have hfetch : s₁.fetch c 6 = s₂.fetch c 6 :=
      State.fetch_congr hsize fun k hk _ _ => hbytes k hk (by omega)
    have hanswer : decode s₂.policy (s₂.fetch c 6) = decode s₁.policy (s₁.fetch c 6) := by
      rw [hpol, hfetch]
    cases hd : decode s₁.policy (s₁.fetch c 6) with
    | ok r =>
      exact .inl ⟨tupleOf c r.1, step_of_decode_ok h₁ hc hd,
        step_of_decode_ok h₂ hc₂ (hanswer.trans hd)⟩
    | error e =>
      rw [step_eq_reportError h₁ hc hd, step_eq_reportError h₂ hc₂ (hanswer.trans hd)]
      cases e with
      | endOfBuffer => exact .inr (.inr (.inl ⟨rfl, rfl⟩))
      | unrecognizedOpcode p m => exact .inr (.inl ⟨.unrecognizedOpcode c p m, rfl, rfl⟩)
      | truncated shape =>
        refine .inr (.inl ⟨.truncatedInstruction shape s₁.size, rfl, ?_⟩)
        rw [hsize]
        rfl
  · refine .inr (.inr (.inl ⟨step_at_end h₁, step_at_end ?_⟩))
    rwa [← hsize]
  · exact .inr (.inr (.inr ⟨step_past_end h₁ hc, step_past_end h₂ (hsize ▸ hc)⟩))

end Sys2Proof.Machine

/-! # Proofs: errors and ends (60_exceptions.md)

Why the decoder rejects bytes is said once, in `decode_eq_error`; that an instruction cut short is
`TruncatedInstruction` is read off it, since the other errors stand whatever bytes follow. -/

namespace Sys2Proof

/-! ## The errors of the decoder -/

/-- R172: a reader of shape `shape` fails only where its bytes end. -/
def FailsTruncated {α : Type} (shape : Shape) (r : Except DecodeError α) : Prop :=
  ∀ e, r = .error e → e = .truncated shape

section
variable {shape : Shape}

theorem failsTruncated_ok {α : Type} (a : α) : FailsTruncated shape (.ok a) := by
  intro e h
  cases h

theorem FailsTruncated.bind {α β : Type} {x : Except DecodeError α} {f : α → Except DecodeError β}
    (hx : FailsTruncated shape x) (hf : ∀ a, FailsTruncated shape (f a)) :
    FailsTruncated shape (x >>= f) := by
  cases x with
  | error e => exact fun e' h => hx e' (by cases h; rfl)
  | ok a => exact hf a

theorem takeByte_failsTruncated (bs : List Byte) : FailsTruncated shape (takeByte shape bs) := by
  intro e h
  match bs, h with
  | [], h => cases h; rfl
  | _ :: _, h => cases h

theorem takeWord_failsTruncated (bs : List Byte) : FailsTruncated shape (takeWord shape bs) := by
  intro e h
  match bs, h with
  | [], h => cases h; rfl
  | [_], h => cases h; rfl
  | _ :: _ :: _, h => cases h

theorem decodeRmField_failsTruncated (x : ModRM) (bs : List Byte) :
    FailsTruncated shape (decodeRmField shape x bs) := by
  unfold decodeRmField
  split_ifs
  · exact failsTruncated_ok _
  · exact (takeWord_failsTruncated bs).bind fun _ => failsTruncated_ok _
  · exact failsTruncated_ok _
  · exact (takeByte_failsTruncated bs).bind fun _ => failsTruncated_ok _
  · exact (takeWord_failsTruncated bs).bind fun _ => failsTruncated_ok _

end

/-- Shape `RM` (R100). -/
theorem decodeRegMem_failsTruncated (d : Direction) (w : Width) (bs : List Byte) :
    FailsTruncated .rm (decodeRegMem d w bs) :=
  (takeByte_failsTruncated bs).bind fun _ =>
    (decodeRmField_failsTruncated _ _).bind fun _ => failsTruncated_ok _

/-- Shape `IRM` (R120) after a mod/reg/rm byte whose reg field is accepted. -/
theorem decodeImmRm_failsTruncated {policy : C6RegPolicy} {m : Byte}
    (hacc : policy.accepts (ModRM.ofByte m).reg = true) (b0 : Byte) (w : Width) (bs : List Byte) :
    FailsTruncated .irm (decodeImmRm policy b0 w (m :: bs)) := by
  simp only [decodeImmRm, takeByte_cons, bind, Except.bind, hacc, if_true]
  refine (decodeRmField_failsTruncated _ _).bind fun _ => ?_
  cases w with
  | byte => exact (takeByte_failsTruncated _).bind fun _ => failsTruncated_ok _
  | word => exact (takeWord_failsTruncated _).bind fun _ => failsTruncated_ok _

/-- R76: the reg field is rejected whatever bytes follow it. -/
theorem decodeImmRm_rejected {policy : C6RegPolicy} {m : Byte}
    (hacc : policy.accepts (ModRM.ofByte m).reg = false) (b0 : Byte) (w : Width) (bs : List Byte) :
    decodeImmRm policy b0 w (m :: bs) = .error (.unrecognizedOpcode b0 (some m)) := by
  simp [decodeImmRm, bind, Except.bind, hacc]

/-- Shape `IR` (R123). -/
theorem decodeImmReg_failsTruncated (w : Width) (code : RegCode) (bs : List Byte) :
    FailsTruncated .ir (decodeImmReg w code bs) := by
  cases w with
  | byte => exact (takeByte_failsTruncated bs).bind fun _ => failsTruncated_ok _
  | word => exact (takeWord_failsTruncated bs).bind fun _ => failsTruncated_ok _

/-- Shape `MA` (R140). -/
theorem decodeMemAcc_failsTruncated (w : Width) (bs : List Byte) :
    FailsTruncated .ma (decodeMemAcc w bs) :=
  (takeWord_failsTruncated bs).bind fun _ => by cases w <;> exact failsTruncated_ok _

/-- Shape `AM` (R140). -/
theorem decodeAccMem_failsTruncated (w : Width) (bs : List Byte) :
    FailsTruncated .am (decodeAccMem w bs) :=
  (takeWord_failsTruncated bs).bind fun _ => by cases w <;> exact failsTruncated_ok _

section
variable {policy : C6RegPolicy} {b0 : Byte} {bs : List Byte} {e : DecodeError}

/-- Why bytes are no instruction: they end inside a field (R172), or one of the two causes of R171
stands at their head, and then no byte after it matters. -/
theorem decode_eq_error (h : decode policy (b0 :: bs) = .error e) :
    e = .truncated (classify b0).shape ∨
    (classify b0 = .unrecognized ∧ e = .unrecognizedOpcode b0 none) ∨
    ∃ w m rest, classify b0 = .irm w ∧ bs = m :: rest ∧
      policy.accepts (ModRM.ofByte m).reg = false ∧ e = .unrecognizedOpcode b0 (some m) := by
  simp only [decode] at h
  cases hk : classify b0 <;> simp only [hk] at h
  case rm d w => exact .inl (decodeRegMem_failsTruncated d w bs e h)
  case irm w =>
    match bs, h with
    | [], h => cases h; exact .inl rfl
    | m :: rest, h =>
      cases hacc : policy.accepts (ModRM.ofByte m).reg with
      | true => exact .inl (decodeImmRm_failsTruncated hacc b0 w rest e h)
      | false =>
        cases (decodeImmRm_rejected hacc b0 w rest).symm.trans h
        exact .inr (.inr ⟨w, m, rest, rfl, rfl, hacc, rfl⟩)
  case ir w code => exact .inl (decodeImmReg_failsTruncated w code bs e h)
  case ma w => exact .inl (decodeMemAcc_failsTruncated w bs e h)
  case am w => exact .inl (decodeAccMem_failsTruncated w bs e h)
  case unrecognized => cases h; exact .inr (.inl ⟨rfl, rfl⟩)

/-- An error that is no truncation stands whatever bytes follow. -/
theorem decode_error_append (h : decode policy (b0 :: bs) = .error e)
    (he : e ≠ .truncated (classify b0).shape) (tail : List Byte) :
    decode policy (b0 :: bs ++ tail) = .error e := by
  obtain rfl | ⟨hk, rfl⟩ | ⟨w, m, rest, hk, rfl, hacc, rfl⟩ := decode_eq_error h
  · exact absurd rfl he
  · simp [decode, hk]
  · simp [decode, hk, decodeImmRm_rejected hacc]

/-- R178: a well-formed instruction cut anywhere after its leading byte is truncated. -/
theorem decode_of_encode_cut {i : Instr} {tail : List Byte} (hwf : i.wellFormed policy = true)
    (hcut : encode i = b0 :: bs ++ tail) (htail : tail ≠ []) :
    decode policy (b0 :: bs) = .error (.truncated (classify b0).shape) := by
  have hwhole : decode policy (b0 :: bs ++ tail) = .ok (i, []) := by
    simpa [hcut] using decode_encode [] hwf
  cases hd : decode policy (b0 :: bs) with
  | ok r =>
    obtain ⟨j, rest⟩ := r
    obtain ⟨hbytes, hwfj⟩ := encode_of_decode hd
    rw [hbytes, List.append_assoc, decode_encode _ hwfj] at hwhole
    simp [htail] at hwhole
  | error e =>
    by_contra hne
    have herr := decode_error_append hd (fun h => hne (congrArg _ h)) tail
    cases herr.symm.trans hwhole

end

end Sys2Proof

namespace Sys2Proof.Machine

/-! ## The end of the buffer -/

/-- Where the buffer ends within the window, the fetch is all that is left of it. -/
theorem State.fetch_eq_bytesAt {s : State} {a n : Nat} (ha : a ≤ s.size) (hn : s.size - a ≤ n) :
    s.fetch a n = s.buf.bytesAt a (s.size - a) := by
  rw [State.fetch_eq_append hn (by omega), State.fetch_ge _ (by omega), List.append_nil]

/-- R151: a stream finishes only where its cursor stands at `N`. -/
theorem runsAt_size_of_step_finished {s s' : State} (h : step s = .next s')
    (hf : s'.status = .finished) : s.runsAt s.size := by
  obtain ⟨c, hr, ⟨rfl, -⟩ | ⟨e, -, -, rfl⟩ | ⟨i, -, -, -, rfl⟩⟩ := step_eq_next h
  · exact hr
  · simp at hf
  · simp [hr.1] at hf

/-- R178: an instruction the end of the buffer cuts short is `TruncatedInstruction` (D10, D13). -/
theorem step_of_encode_cut {s : State} {c : Nat} {i : Instr} (h : s.runsAt c) (hc : c < s.size)
    (hwf : i.wellFormed s.policy = true) (hcut : s.size < c + (encode i).length)
    (hbytes : s.buf.bytesAt c (s.size - c) = (encode i).take (s.size - c)) :
    step s =
      .next (s.takeError (.truncatedInstruction (classify (s.buf.read c)).shape s.size)) := by
  have hlen : (encode i).length ≤ 6 := (Laws.EncodedLength.all i).2
  have hfetch : s.fetch c 6 = s.buf.read c :: s.fetch (c + 1) 5 := State.fetch_lt 5 hc
  have hhead : (encode i).take (s.size - c) = s.buf.read c :: s.fetch (c + 1) 5 := by
    rw [← hbytes, ← hfetch, State.fetch_eq_bytesAt hc.le (by omega)]
  have htail : (encode i).drop (s.size - c) ≠ [] := by
    rw [Ne, List.drop_eq_nil_iff]
    omega
  have hd : decode s.policy (s.fetch c 6) =
      .error (.truncated (classify (s.buf.read c)).shape) := by
    rw [hfetch]
    exact decode_of_encode_cut hwf (by rw [← hhead, List.take_append_drop]) htail
  exact step_eq_reportError h hc hd

/-- Settles O42: at `N` the call is `Done`, no other end of a call finishes the stream, and the
bytes of a cut instruction decode to its truncation. -/
theorem doneExactlyAtTheEnd : Obligations.DoneExactlyAtTheEnd :=
  ⟨fun _ => step_at_end, fun _ _ => runsAt_size_of_step_finished,
    fun _ _ _ => step_of_encode_cut⟩

/-! ## The restart -/

theorem State.restart_runsAt (s : State) (n : Nat) : (s.restart n).runsAt n := ⟨rfl, rfl⟩

@[simp] theorem State.failingOffset_restart (s : State) (n : Nat) :
    (s.restart n).failingOffset = n := rfl

/-- R190: a restart at or below `N` starts a stream. -/
theorem StreamInv.restart {s : State} (hi : StreamInv s) {n : Nat} (hn : n ≤ s.size) :
    StreamInv (s.restart n) where
  canonical := hi.canonical
  bounded := hi.bounded
  tiled := by simp [tiles]
  inside := hn
  logged := rfl
  agrees := by simp [statusAgrees]

/-- R160: the record of a failed stream is what the call where its log ends returned. -/
theorem StreamInv.decodeOne_eq_err {s : State} {e : ErrorRecord} (hi : StreamInv s)
    (h : s.status = .failed e) : decodeOne s.buf s.size s.policy s.failingOffset = .err e := by
  have := hi.agrees
  simp only [statusAgrees, h, Bool.and_eq_true, errorFits, beq_iff_eq] at this
  exact this.2

/-- A failing instruction has its leading byte below `N`: at `N` the call is `Done` (R151). -/
theorem StreamInv.failingOffset_lt {s : State} {e : ErrorRecord} (hi : StreamInv s)
    (h : s.status = .failed e) : s.failingOffset < s.size := by
  refine lt_of_le_of_ne hi.inside fun heq => ?_
  have herr := hi.decodeOne_eq_err h
  rw [heq, decodeOne_at_end] at herr
  cases herr

/-- Settles O47: the failing instruction starts below `N`, so a restart one byte past it starts at
or below `N`. -/
theorem restartAfterErrorStartsAStream : Obligations.RestartAfterErrorStartsAStream :=
  fun s _ hi h =>
    ⟨hi.restart (hi.failingOffset_lt h), s.restart_runsAt _, rfl, fun _ => rfl⟩

end Sys2Proof.Machine

/-! ## The host's start -/

namespace Sys2Proof.Machine

/-- R191: the buffer of the host's start reads as the host's bytes below `N` and as nothing from `N`
on. -/
theorem State.boot_memRead (bytes : List Byte) (start : Nat) (policy : C6RegPolicy) (a : Nat) :
    (State.boot bytes start policy).memRead a = bytes[a]? := by
  rcases Nat.lt_or_ge a bytes.length with ha | ha
  · have hread : (Buffer.ofBytesAt 0 bytes).read a = bytes[a] := by
      simpa [ha] using Buffer.read_ofBytesAt 0 bytes a
    rw [State.memRead_lt ha, State.boot_buf, hread, List.getElem?_eq_getElem ha]
  · rw [State.memRead_ge ha, List.getElem?_eq_none ha]

/-- Settles O3: an empty log at a `START` inside the buffer meets the invariant, and the canonical
buffer reads back the bytes it was built from. -/
theorem bootMeetsStreamInvariant : Obligations.BootMeetsStreamInvariant :=
  fun bytes start policy h =>
    ⟨boot_streamInv bytes policy h, State.boot_memRead bytes start policy⟩

end Sys2Proof.Machine

/-! # Proofs: what decides a call (60_exceptions.md R171 to R174)

`decode_consumes` says how many bytes the decoder needs: the length R79 computes from the first two.
With it a call below `N` has four ends, each decided by a condition on the buffer
(`step_unrecognized`, `step_rejected`, `step_truncated`, `step_logs`). -/

namespace Sys2Proof

/-! ## The bytes a reader takes -/

/-- A reader that takes `n` bytes: it leaves the others, or there are fewer and it answers
`truncated`. The errors of R171 need no byte count. -/
inductive Consumes {α : Type} (n : Nat) (bs : List Byte) :
    Except DecodeError (α × List Byte) → Prop where
  | ok (a : α) {rest : List Byte} (taken : bs.length = n + rest.length) :
      Consumes n bs (.ok (a, rest))
  | truncated (shape : Shape) (short : bs.length < n) : Consumes n bs (.error (.truncated shape))
  | unrecognizedOpcode (pattern : Byte) (second : Option Byte) :
      Consumes n bs (.error (.unrecognizedOpcode pattern second))

theorem consumes_zero {α : Type} (a : α) (bs : List Byte) : Consumes 0 bs (.ok (a, bs)) :=
  .ok a (Nat.zero_add _).symm

/-- Two readers in a row take the bytes of both. -/
theorem Consumes.bind {α β : Type} {n k : Nat} {bs : List Byte}
    {x : Except DecodeError (α × List Byte)}
    {f : α × List Byte → Except DecodeError (β × List Byte)}
    (hx : Consumes n bs x) (hf : ∀ a rest, Consumes k rest (f (a, rest))) :
    Consumes (n + k) bs (x >>= f) := by
  cases hx with
  | @ok a rest htaken =>
    change Consumes (n + k) bs (f (a, rest))
    have hk := hf a rest
    generalize f (a, rest) = answer at hk
    cases hk with
    | ok b h => exact .ok b (by omega)
    | truncated shape h => exact .truncated shape (by omega)
    | unrecognizedOpcode p m => exact .unrecognizedOpcode p m
  | truncated shape h => exact .truncated shape (by omega)
  | unrecognizedOpcode p m => exact .unrecognizedOpcode p m

/-- What is made of a field takes no byte more. -/
theorem Consumes.map {α β : Type} {n : Nat} {bs : List Byte}
    {x : Except DecodeError (α × List Byte)}
    {f : α × List Byte → Except DecodeError (β × List Byte)}
    (hx : Consumes n bs x) (hf : ∀ a rest, ∃ b, f (a, rest) = .ok (b, rest)) :
    Consumes n bs (x >>= f) :=
  hx.bind (k := 0) fun a rest => by
    obtain ⟨b, hb⟩ := hf a rest
    exact hb ▸ consumes_zero b rest

/-- After the byte `m` a reader takes one byte less. -/
theorem Consumes.cons {α : Type} {n : Nat} {bs : List Byte} {x : Except DecodeError (α × List Byte)}
    (h : Consumes n bs x) (m : Byte) : Consumes (1 + n) (m :: bs) x := by
  cases h with
  | ok a h => exact .ok a (by rw [List.length_cons]; omega)
  | truncated shape h => exact .truncated shape (by rw [List.length_cons]; omega)
  | unrecognizedOpcode p m => exact .unrecognizedOpcode p m

theorem takeByte_consumes (shape : Shape) (bs : List Byte) :
    Consumes 1 bs (takeByte shape bs) := by
  match bs with
  | [] => exact .truncated shape Nat.one_pos
  | b :: rest => exact .ok b (Nat.add_comm rest.length 1)

theorem takeWord_consumes (shape : Shape) (bs : List Byte) :
    Consumes 2 bs (takeWord shape bs) := by
  match bs with
  | [] => exact .truncated shape Nat.two_pos
  | [_] => exact .truncated shape Nat.one_lt_two
  | lo :: hi :: rest => exact .ok (le16 lo hi) (Nat.add_comm rest.length 2)

/-- R79, `DispBytes`. -/
theorem decodeRmField_consumes (shape : Shape) (x : ModRM) (bs : List Byte) :
    Consumes x.dispLength bs (decodeRmField shape x bs) := by
  obtain ⟨mod, reg, rm⟩ := x
  have hmod : mod = 0 ∨ mod = 1 ∨ mod = 2 ∨ mod = 3 := by revert mod; decide
  rcases hmod with rfl | rfl | rfl | rfl
  · by_cases hrm : rm = 0b110
    · subst hrm
      exact (takeWord_consumes shape bs).map fun _ _ => ⟨_, rfl⟩
    · have hd : decodeRmField shape ⟨0, reg, rm⟩ bs = .ok (.mem (.based rm .noDisp), bs) :=
        if_neg hrm
      have hl : (⟨0, reg, rm⟩ : ModRM).dispLength = 0 := if_neg fun h => hrm h.2
      rw [hd, hl]
      exact consumes_zero _ bs
  · exact (takeByte_consumes shape bs).map fun _ _ => ⟨_, rfl⟩
  · exact (takeWord_consumes shape bs).map fun _ _ => ⟨_, rfl⟩
  · exact consumes_zero _ bs

section
variable {m : Byte} {bs : List Byte}

/-- Shape `RM` (R100); `m` is the mod/reg/rm byte where there is one. -/
theorem decodeRegMem_consumes (d : Direction) (w : Width) (hm : bs.headD m = m) :
    Consumes (1 + (ModRM.ofByte m).dispLength) bs (decodeRegMem d w bs) := by
  match bs, hm with
  | [], _ => exact .truncated .rm (by simp)
  | m' :: rest, hm =>
    obtain rfl : m' = m := hm
    simp only [decodeRegMem, takeByte_cons, bind, Except.bind]
    refine Consumes.cons (Consumes.map (decodeRmField_consumes .rm _ rest) fun o bs => ?_) m'
    exact ⟨regMemInstr d w _ o, rfl⟩

/-- Shape `IRM` (R120). -/
theorem decodeImmRm_consumes (policy : C6RegPolicy) (b0 : Byte) (w : Width)
    (hm : bs.headD m = m) :
    Consumes (1 + ((ModRM.ofByte m).dispLength + w.bytes)) bs (decodeImmRm policy b0 w bs) := by
  match bs, hm with
  | [], _ => exact .truncated .irm (by simp)
  | m' :: rest, hm =>
    obtain rfl : m' = m := hm
    cases hacc : policy.accepts (ModRM.ofByte m').reg with
    | false =>
      rw [decodeImmRm_rejected hacc]
      exact .unrecognizedOpcode b0 (some m')
    | true =>
      simp only [decodeImmRm, takeByte_cons, bind, Except.bind, hacc, if_true]
      refine Consumes.cons (Consumes.bind (decodeRmField_consumes .irm _ rest) fun o bs => ?_) m'
      cases w with
      | byte => exact (takeByte_consumes .irm bs).map fun _ _ => ⟨_, rfl⟩
      | word => exact (takeWord_consumes .irm bs).map fun _ _ => ⟨_, rfl⟩

/-- Shape `IR` (R123). -/
theorem decodeImmReg_consumes (w : Width) (code : RegCode) :
    Consumes w.bytes bs (decodeImmReg w code bs) := by
  cases w with
  | byte => exact (takeByte_consumes .ir bs).map fun _ _ => ⟨_, rfl⟩
  | word => exact (takeWord_consumes .ir bs).map fun _ _ => ⟨_, rfl⟩

/-- Shape `MA` (R140). -/
theorem decodeMemAcc_consumes (w : Width) : Consumes 2 bs (decodeMemAcc w bs) :=
  (takeWord_consumes .ma bs).map fun _ _ => by cases w <;> exact ⟨_, rfl⟩

/-- Shape `AM` (R140). -/
theorem decodeAccMem_consumes (w : Width) : Consumes 2 bs (decodeAccMem w bs) :=
  (takeWord_consumes .am bs).map fun _ _ => by cases w <;> exact ⟨_, rfl⟩

/-- R79: the decoder takes the length told from the leading byte and the byte after it. -/
theorem decode_consumes (policy : C6RegPolicy) (b0 : Byte) (hm : bs.headD m = m) :
    Consumes ((classify b0).length (ModRM.ofByte m)) (b0 :: bs) (decode policy (b0 :: bs)) := by
  simp only [decode]
  cases classify b0 with
  | rm d w => simpa only [Classified.length, ← Nat.add_assoc] using
      (decodeRegMem_consumes d w hm).cons b0
  | irm w => simpa only [Classified.length, ← Nat.add_assoc] using
      (decodeImmRm_consumes policy b0 w hm).cons b0
  | ir w code => exact (decodeImmReg_consumes w code).cons b0
  | ma w => exact (decodeMemAcc_consumes w).cons b0
  | am w => exact (decodeAccMem_consumes w).cons b0
  | unrecognized => exact .unrecognizedOpcode b0 none

end

/-! ## Lengths of verdicts -/

/-- R78: an instruction has at least two bytes. -/
theorem Classified.two_le_length {k : Classified} (hk : k ≠ .unrecognized) (x : ModRM) :
    2 ≤ k.length x := by
  cases k with
  | rm d w => exact Nat.le_add_right 2 _
  | irm w => simp only [Classified.length]; omega
  | ir w code => cases w <;> simp [Classified.length]
  | ma w | am w => exact Nat.le_succ 2
  | unrecognized => exact absurd rfl hk

theorem ModRM.dispLength_le (x : ModRM) : x.dispLength ≤ 2 := by
  unfold ModRM.dispLength
  split_ifs <;> omega

/-- R78: an instruction has at most six bytes. -/
theorem Classified.length_le (k : Classified) (x : ModRM) : k.length x ≤ 6 := by
  have hx := x.dispLength_le
  cases k with
  | rm d w => simp only [Classified.length]; omega
  | irm w => cases w <;> simp only [Classified.length, Width.bytes] <;> omega
  | ir w code => cases w <;> simp [Classified.length]
  | ma w | am w => exact Nat.le_add_right 3 3
  | unrecognized => exact Nat.zero_le 6

end Sys2Proof

namespace Sys2Proof.Machine

/-! ## The four ends of a call below `N` -/

/-- R79: the length of the instruction at offset `c`, told from the bytes at `c` and `c + 1`. -/
def State.lengthAt (s : State) (c : Nat) : Nat :=
  (classify (s.buf.read c)).length (ModRM.ofByte (s.buf.read (c + 1)))

/-- R171 (b): the second cause of `UnrecognizedOpcode` stands at offset `c`. -/
def State.rejectedAt (s : State) (c : Nat) : Prop :=
  (∃ w, classify (s.buf.read c) = .irm w) ∧ c + 1 < s.size ∧
    (ModRM.ofByte (s.buf.read (c + 1))).reg ≠ 0b000 ∧ s.policy = .reject

/-- The well-formed instruction `i` stands at offset `c`, all of its bytes below `N`. -/
structure State.HoldsAt (s : State) (c : Nat) (i : Instr) : Prop where
  wf : i.wellFormed s.policy = true
  length_eq : (tupleOf c i).length = s.lengthAt c
  inside : c + (tupleOf c i).length ≤ s.size
  bytes : s.buf.bytesAt c (tupleOf c i).length = encode i

theorem State.length_fetch (s : State) (a n : Nat) :
    (s.fetch a n).length = min n (s.size - a) := by
  induction n generalizing a with
  | zero => simp [State.fetch]
  | succ n ih =>
    by_cases ha : a < s.size
    · rw [State.fetch_lt n ha, List.length_cons, ih]
      omega
    · rw [State.fetch_ge _ (by omega), List.length_nil]
      omega

theorem State.headD_fetch (s : State) (a n : Nat) :
    (s.fetch a n).headD (s.buf.read a) = s.buf.read a := by
  cases n with
  | zero => rfl
  | succ n =>
    by_cases ha : a < s.size
    · rw [State.fetch_lt n ha, List.headD_cons]
    · rw [State.fetch_ge _ (by omega), List.headD_nil]

section
variable {s : State} {c : Nat}

/-- R79 on the fetched bytes. -/
theorem decode_fetch_consumes (hc : c < s.size) :
    Consumes (s.lengthAt c) (s.fetch c 6) (decode s.policy (s.fetch c 6)) := by
  rw [State.fetch_lt 5 hc]
  exact decode_consumes s.policy (s.buf.read c) (s.headD_fetch (c + 1) 5)

/-- The instruction the bytes of a call decode to stands at the cursor. -/
theorem holdsAt_of_decode_fetch {i : Instr} {rest : List Byte} (hc : c < s.size)
    (hd : decode s.policy (s.fetch c 6) = .ok (i, rest)) :
    s.HoldsAt c i := by
  obtain ⟨hfetch, hwf⟩ := encode_of_decode hd
  obtain ⟨hbytes, hin⟩ := State.bytesAt_of_fetch hfetch hc.le
  have hlen : (encode i).length = s.lengthAt c := by
    have htaken := decode_fetch_consumes hc
    rw [hd] at htaken
    cases htaken with
    | ok _ h =>
      rw [hfetch, List.length_append] at h
      omega
  rw [length_encode c] at hbytes hin hlen
  exact ⟨hwf, hlen, hin, hbytes⟩

/-- Why the bytes of a call are no instruction: they end before the length R79 tells (R172), or one
of the two causes of R171 stands at the cursor. -/
theorem decode_fetch_eq_error {e : DecodeError} (hc : c < s.size)
    (hd : decode s.policy (s.fetch c 6) = .error e) :
    (s.size < c + s.lengthAt c ∧ e = .truncated (classify (s.buf.read c)).shape) ∨
    (classify (s.buf.read c) = .unrecognized ∧ e = .unrecognizedOpcode (s.buf.read c) none) ∨
    (s.rejectedAt c ∧
      e = .unrecognizedOpcode (s.buf.read c) (some (s.buf.read (c + 1)))) := by
  have hfetch : s.fetch c 6 = s.buf.read c :: s.fetch (c + 1) 5 := State.fetch_lt 5 hc
  have hshort := decode_fetch_consumes hc
  rw [hd] at hshort
  rw [hfetch] at hd
  obtain rfl | hk | ⟨w, m, rest, hk, hm, hacc, rfl⟩ := decode_eq_error hd
  · cases hshort with
    | truncated _ h =>
      have hmax : s.lengthAt c ≤ 6 := Classified.length_le _ _
      rw [State.length_fetch] at h
      exact .inl ⟨by omega, rfl⟩
  · exact .inr (.inl hk)
  · by_cases hc' : c + 1 < s.size
    · obtain ⟨rfl, -⟩ := List.cons.inj ((State.fetch_lt 4 hc').symm.trans hm)
      exact .inr (.inr ⟨⟨⟨w, hk⟩, hc', (accepts_eq_false_iff _ _).1 hacc⟩, rfl⟩)
    · rw [State.fetch_ge _ (by omega)] at hm
      cases hm

/-- R171 (a), R80: whatever follows the leading byte. -/
theorem step_unrecognized (h : s.runsAt c) (hc : c < s.size)
    (hk : classify (s.buf.read c) = .unrecognized) :
    step s = .next (s.takeError (.unrecognizedOpcode c (s.buf.read c) none)) := by
  refine step_eq_reportError (e := .unrecognizedOpcode (s.buf.read c) none) h hc ?_
  rw [State.fetch_lt 5 hc]
  simp only [decode, hk]

/-- R171 (b), R76: whatever follows the mod/reg/rm byte. -/
theorem step_rejected (h : s.runsAt c) (hrej : s.rejectedAt c) :
    step s = .next
      (s.takeError (.unrecognizedOpcode c (s.buf.read c) (some (s.buf.read (c + 1))))) := by
  obtain ⟨⟨w, hk⟩, hc, hreg⟩ := hrej
  have hacc := (accepts_eq_false_iff _ _).2 hreg
  refine step_eq_reportError
    (e := .unrecognizedOpcode (s.buf.read c) (some (s.buf.read (c + 1)))) h (by omega) ?_
  rw [State.fetch_lt 5 (by omega), State.fetch_lt 4 hc]
  simp only [decode, hk, decodeImmRm_rejected hacc]

/-- R172: neither cause of R171, and a byte of the instruction is missing. -/
theorem step_truncated (h : s.runsAt c) (hc : c < s.size)
    (hk : classify (s.buf.read c) ≠ .unrecognized) (hrej : ¬ s.rejectedAt c)
    (hl : s.size < c + s.lengthAt c) :
    step s =
      .next (s.takeError (.truncatedInstruction (classify (s.buf.read c)).shape s.size)) := by
  cases hd : decode s.policy (s.fetch c 6) with
  | ok r =>
    obtain ⟨-, hlen, hin, -⟩ := holdsAt_of_decode_fetch hc hd
    omega
  | error e =>
    obtain ⟨-, rfl⟩ | ⟨hk', -⟩ | ⟨hrej', -⟩ := decode_fetch_eq_error hc hd
    · exact step_eq_reportError h hc hd
    · exact absurd hk' hk
    · exact absurd hrej' hrej

/-- R153: neither cause of R171, and every byte of the instruction below `N`. -/
theorem step_logs (h : s.runsAt c) (hk : classify (s.buf.read c) ≠ .unrecognized)
    (hrej : ¬ s.rejectedAt c) (hl : c + s.lengthAt c ≤ s.size) :
    ∃ i, s.HoldsAt c i ∧ step s = .next (s.logTuple (tupleOf c i)) := by
  have htwo : 2 ≤ s.lengthAt c := Classified.two_le_length hk _
  have hc : c < s.size := by omega
  cases hd : decode s.policy (s.fetch c 6) with
  | ok r => exact ⟨r.1, holdsAt_of_decode_fetch hc hd, step_of_decode_ok h hc hd⟩
  | error e =>
    obtain ⟨hl', -⟩ | ⟨hk', -⟩ | ⟨hrej', -⟩ := decode_fetch_eq_error hc hd
    · omega
    · exact absurd hk' hk
    · exact absurd hrej' hrej

/-- The four ends of a call below `N`. -/
theorem step_ends (h : s.runsAt c) (hc : c < s.size) :
    (classify (s.buf.read c) = .unrecognized ∧
      step s = .next (s.takeError (.unrecognizedOpcode c (s.buf.read c) none))) ∨
    (s.rejectedAt c ∧ step s = .next
      (s.takeError (.unrecognizedOpcode c (s.buf.read c) (some (s.buf.read (c + 1)))))) ∨
    ((classify (s.buf.read c) ≠ .unrecognized ∧ ¬ s.rejectedAt c ∧ s.size < c + s.lengthAt c) ∧
      step s =
        .next (s.takeError (.truncatedInstruction (classify (s.buf.read c)).shape s.size))) ∨
    ∃ i, s.HoldsAt c i ∧ step s = .next (s.logTuple (tupleOf c i)) := by
  by_cases hk : classify (s.buf.read c) = .unrecognized
  · exact .inl ⟨hk, step_unrecognized h hc hk⟩
  by_cases hrej : s.rejectedAt c
  · exact .inr (.inl ⟨hrej, step_rejected h hrej⟩)
  rcases Nat.lt_or_ge s.size (c + s.lengthAt c) with hl | hl
  · exact .inr (.inr (.inl ⟨⟨hk, hrej, hl⟩, step_truncated h hc hk hrej hl⟩))
  · exact .inr (.inr (.inr (step_logs h hk hrej hl)))

end

/-! ## The ends tell themselves apart -/

@[simp] theorem takeError_inj {s : State} {e e' : ErrorRecord} :
    s.takeError e = s.takeError e' ↔ e = e' := by
  simp [State.takeError]

@[simp] theorem takeError_ne_logTuple (s : State) (e : ErrorRecord) (t : DecodedInstr) :
    s.takeError e ≠ s.logTuple t := fun h => by simpa using congrArg State.log h

@[simp] theorem logTuple_ne_takeError (s : State) (e : ErrorRecord) (t : DecodedInstr) :
    s.logTuple t ≠ s.takeError e := (takeError_ne_logTuple s e t).symm

@[simp] theorem finish_ne_takeError (s : State) (e : ErrorRecord) :
    s.finish ≠ s.takeError e := fun h => by simpa using congrArg State.status h

/-- Only a call below `N` ends in an error. -/
theorem lt_size_of_takeError {s : State} {c : Nat} {e : ErrorRecord} (h : s.runsAt c)
    (hs : step s = .next (s.takeError e)) : c < s.size := by
  by_contra hc
  rcases Nat.eq_or_lt_of_not_lt hc with rfl | hc
  · simp [step_at_end h] at hs
  · simp [step_past_end h hc] at hs

/-- A step that logs a tuple logs that of the instruction at its cursor. -/
theorem step_eq_logged {s s' : State} {t : DecodedInstr} (h : step s = .next s')
    (hlog : s'.log = s.log ++ [t]) :
    ∃ c i, s.runsAt c ∧ s.HoldsAt c i ∧ t = tupleOf c i ∧ s' = s.logTuple t := by
  obtain ⟨c, hr, ⟨-, rfl⟩ | ⟨hc, -⟩⟩ := beginCall_eq_next h
  · simp at hlog
  · obtain ⟨-, hs⟩ | ⟨-, hs⟩ | ⟨-, hs⟩ | ⟨i, hi, hs⟩ := step_ends hr hc <;>
      rw [hs] at h <;> cases h
    · simp at hlog
    · simp at hlog
    · simp at hlog
    · obtain rfl : tupleOf c i = t := by simpa using hlog
      exact ⟨c, i, hr, hi, rfl, rfl⟩

end Sys2Proof.Machine

namespace Sys2Proof

/-! ## The length by shape (R79) -/

theorem Classified.shape_eq_irm {k : Classified} : k.shape = .irm ↔ ∃ w, k = .irm w := by
  cases k <;> simp [Classified.shape]

/-- A verdict with a mod/reg/rm byte needs it and the displacement after it. -/
theorem Classified.modrm_le_length {k : Classified} (h : k.shape = .rm ∨ k.shape = .irm)
    (x : ModRM) : 2 + x.dispLength ≤ k.length x := by
  cases k with
  | rm d w => exact le_rfl
  | irm w => exact Nat.le_add_right _ _
  | _ => simp [Classified.shape] at h

/-- Shapes `MA` and `AM` need the leading byte and the address. -/
theorem Classified.length_of_acc {k : Classified} (h : k.shape = .ma ∨ k.shape = .am)
    (x : ModRM) : k.length x = 3 := by
  cases k with
  | ma w | am w => rfl
  | _ => simp [Classified.shape] at h

/-- `1 + W`, as R79 writes it and as R172 does. -/
theorem Width.bytes_eq (w : Width) : w.bytes = 1 + w.bit.toNat := by
  cases w <;> rfl

end Sys2Proof

namespace Sys2Proof.Machine

/-- Settles O40: lines 3, 5 and 8 are the ends of `step_ends`; lines 4, 6 and 7 all say that a byte
of the instruction is missing where no cause of R171 stands at the cursor. -/
theorem firstConditionDecidesTheResult : Obligations.FirstConditionDecidesTheResult := by
  intro s c h k x truncated
  have htruncated : c < s.size → k ≠ .unrecognized →
      ¬ (k.shape = .irm ∧ c + 2 ≤ s.size ∧ x.reg ≠ 0b000 ∧ s.policy = .reject) →
      s.size < c + k.length x → step s = truncated := by
    intro hc hk hrej hl
    refine step_truncated h hc hk (fun ⟨hw, hc', hreg⟩ => hrej ?_) hl
    exact ⟨Classified.shape_eq_irm.2 hw, hc', hreg⟩
  split_ifs with hpast hend hk hm hreg hd hl
  · exact step_past_end h hpast
  · exact step_at_end (hend ▸ h)
  · exact step_unrecognized h (by omega) hk
  · refine htruncated (by omega) hk (by omega) ?_
    have := Classified.modrm_le_length hm.1 x
    omega
  · obtain ⟨hshape, hreg⟩ := hreg
    have hc' : ¬ s.size < c + 2 := fun hlt => hm ⟨.inr hshape, hlt⟩
    exact step_rejected h ⟨Classified.shape_eq_irm.1 hshape, by omega, hreg⟩
  · refine htruncated (by omega) hk (fun hrej => hreg ⟨hrej.1, hrej.2.2⟩) ?_
    rcases hd with ⟨hshape, hlt⟩ | ⟨hshape, hlt⟩
    · have := Classified.modrm_le_length hshape x
      omega
    · rw [Classified.length_of_acc hshape]
      exact hlt
  · exact htruncated (by omega) hk (fun hrej => hreg ⟨hrej.1, hrej.2.2⟩) hl
  · have hrej : ¬ s.rejectedAt c := fun ⟨hw, _, hr⟩ => hreg ⟨Classified.shape_eq_irm.2 hw, hr⟩
    obtain ⟨i, -, hs⟩ := step_logs h hk hrej (Nat.not_lt.1 hl)
    exact ⟨tupleOf c i, by rw [hs, State.logTuple, tupleOf_start]⟩

/-! ## The causes of the two errors -/

/-- Settles O37: the two ends of `step_ends` that record an `UnrecognizedOpcode`, and their rules. -/
theorem unrecognizedOpcodeCauses : Obligations.UnrecognizedOpcodeCauses := by
  intro s c h hc offset pattern second
  change step s = .next (s.takeError (.unrecognizedOpcode offset pattern second)) ↔ _
  constructor
  · intro hstep
    obtain ⟨hk, hs⟩ | ⟨hrej, hs⟩ | ⟨-, hs⟩ | ⟨i, -, hs⟩ := step_ends h hc <;>
      rw [hs] at hstep
    · obtain ⟨rfl, rfl, rfl⟩ : c = offset ∧ s.buf.read c = pattern ∧ none = second := by
        simpa using hstep
      exact ⟨rfl, rfl, .inl ⟨rfl, hk⟩⟩
    · obtain ⟨rfl, rfl, rfl⟩ : c = offset ∧ s.buf.read c = pattern ∧
          some (s.buf.read (c + 1)) = second := by simpa using hstep
      exact ⟨rfl, rfl, .inr ⟨rfl, hrej⟩⟩
    · simp at hstep
    · simp at hstep
  · rintro ⟨rfl, rfl, ⟨rfl, hk⟩ | ⟨rfl, hrej⟩⟩
    · exact step_unrecognized h hc hk
    · exact step_rejected h hrej

/-- R172 in one condition: a byte is missing where no cause of R171 stands at the cursor. -/
theorem step_truncated_iff {s : State} {c : Nat} (h : s.runsAt c) (hc : c < s.size) (shape : Shape)
    (offset : Nat) :
    step s = .next (s.takeError (.truncatedInstruction shape offset)) ↔
      offset = s.size ∧ shape = (classify (s.buf.read c)).shape ∧
        classify (s.buf.read c) ≠ .unrecognized ∧ ¬ s.rejectedAt c ∧ s.size < c + s.lengthAt c := by
  constructor
  · intro hstep
    obtain ⟨-, hs⟩ | ⟨-, hs⟩ | ⟨hcond, hs⟩ | ⟨i, -, hs⟩ := step_ends h hc <;>
      rw [hs] at hstep
    · simp at hstep
    · simp at hstep
    · obtain ⟨rfl, rfl⟩ : (classify (s.buf.read c)).shape = shape ∧ s.size = offset := by
        simpa using hstep
      exact ⟨rfl, rfl, hcond⟩
    · simp at hstep
  · rintro ⟨rfl, rfl, hk, hrej, hl⟩
    exact step_truncated h hc hk hrej hl

/-- R76 in shape `IRM`: the reg field is not there to be looked at, or the policy accepts it. -/
theorem not_rejectedAt_iff {s : State} {c : Nat} {w : Width}
    (hk : classify (s.buf.read c) = .irm w) :
    ¬ s.rejectedAt c ↔
      s.size < c + 2 ∨ (ModRM.ofByte (s.buf.read (c + 1))).reg = 0b000 ∨ s.policy = .ignore := by
  have hpol : s.policy = .reject ↔ ¬ s.policy = .ignore := by cases s.policy <;> decide
  rw [State.rejectedAt, hpol, and_iff_right ⟨w, hk⟩, not_and_or, not_and_or, not_not, not_not,
    Nat.not_lt, Nat.lt_succ_iff]

/-- Settles O38: `step_truncated_iff`, its condition read off the verdict shape by shape. -/
theorem truncatedInstructionCauses : Obligations.TruncatedInstructionCauses := by
  intro s c h hc shape offset
  refine (step_truncated_iff h hc shape offset).trans (and_congr_right' (and_congr_right' ?_))
  have hrej : (classify (s.buf.read c)).shape ≠ .irm → ¬ s.rejectedAt c :=
    fun hshape hrej => hshape (Classified.shape_eq_irm.2 hrej.1)
  unfold State.lengthAt
  cases hk : classify (s.buf.read c) with
  | rm d w | ir w code | ma w | am w =>
    have hnone : ¬ s.rejectedAt c := hrej (by simp [hk, Classified.shape])
    simp only [Classified.length, Width.bytes_eq, hnone, ne_eq, reduceCtorEq, not_false_eq_true,
      true_and]
    omega
  | irm w =>
    simp only [not_rejectedAt_iff hk, Classified.length, Width.bytes_eq, ne_eq, reduceCtorEq,
      not_false_eq_true, true_and]
    by_cases hfield : (ModRM.ofByte (s.buf.read (c + 1))).reg = 0b000 ∨ s.policy = .ignore
    · simp only [hfield, or_true, true_and]
      omega
    · simp only [hfield, or_false, false_and]
      omega
  | unrecognized => simp

end Sys2Proof.Machine

/-! # Proofs: what a call logs, reads and leaves (49_decode_call.md R153 to R160) -/

namespace Sys2Proof.Machine

/-! ## The tuple a call logs -/

/-- R83 on the buffer: the tuple of an instruction encodes to the bytes it stands for. -/
theorem State.HoldsAt.encodeTuple_eq {s : State} {c : Nat} {i : Instr} (h : s.HoldsAt c i) :
    encodeTuple (tupleOf c i) = s.buf.bytesAt c (tupleOf c i).length := by
  rw [encodeTuple_tupleOf, h.bytes]

/-- Settles O17: the decoder reads the whole encoding and takes the length R79 computes. -/
theorem lengthFromFirstTwoBytes : Obligations.LengthFromFirstTwoBytes := by
  intro policy i hwf
  match hbytes : encode i with
  | [] | [_] =>
    have htwo := (Laws.EncodedLength.all i).1
    simp [hbytes] at htwo
  | b0 :: m :: rest =>
    refine ⟨b0, m, rest, rfl, ?_⟩
    have htaken := decode_consumes policy b0 (bs := m :: rest) (m := m) rfl
    have hwhole : decode policy (b0 :: m :: rest) = .ok (i, []) := by
      simpa [hbytes] using decode_encode [] hwf
    rw [hwhole] at htaken
    cases htaken with
    | ok _ h => exact h

/-- Settles O10: `step_eq_logged` and the length R79 tells; the other ends leave the log. -/
theorem successfulCallMovesPastInstruction : Obligations.SuccessfulCallMovesPastInstruction := by
  refine ⟨fun s s' t h hlog => ?_, fun s s' e h hf => ?_⟩
  · obtain ⟨c, i, hr, hi, rfl, rfl⟩ := step_eq_logged h hlog
    exact ⟨c, hr, tupleOf_start c i, two_le_tupleOf_length c i, tupleOf_length_le c i,
      hi.length_eq, by simp, hi.inside, hr.1⟩
  · obtain ⟨c, hr, ⟨-, rfl⟩ | ⟨e, -, -, rfl⟩ | ⟨i, -, -, -, rfl⟩⟩ := step_eq_next h
    · rfl
    · rfl
    · simp [hr.1] at hf

/-- Settles O18: `step_eq_logged` for the bytes; the encoding of a tuple does not look at where it
starts or how long it is. -/
theorem tupleDeterminesItsBytes : Obligations.TupleDeterminesItsBytes := by
  have hbytes : ∀ (s s' : State) (t : DecodedInstr), step s = .next s' → s'.log = s.log ++ [t] →
      encodeTuple t = s.buf.bytesAt t.start t.length ∧ s.cursor = some t.start ∧
        s'.cursor = some (t.start + t.length) := by
    intro s s' t h hlog
    obtain ⟨c, i, hr, hi, rfl, rfl⟩ := step_eq_logged h hlog
    rw [tupleOf_start]
    exact ⟨hi.encodeTuple_eq, hr.2, by simp⟩
  refine ⟨hbytes, fun s₁ s₁' s₂ s₂' t₁ t₂ h₁ hlog₁ h₂ hlog₂ heq => ?_⟩
  have hencode : encodeTuple { t₁ with start := 0, length := 0 } =
      encodeTuple { t₂ with start := 0, length := 0 } := congrArg encodeTuple heq
  rw [← (hbytes s₁ s₁' t₁ h₁ hlog₁).1, ← (hbytes s₂ s₂' t₂ h₂ hlog₂).1]
  exact hencode

/-! ## What a call depends on -/

theorem Buffer.bytesAt_congr {m m' : Buffer} {a n : Nat}
    (h : ∀ k, a ≤ k → k < a + n → m.read k = m'.read k) : m.bytesAt a n = m'.bytesAt a n := by
  induction n generalizing a with
  | zero => rfl
  | succ n ih =>
    rw [Buffer.bytesAt, Buffer.bytesAt, h a le_rfl (by omega),
      ih fun k hk hn => h k (by omega) (by omega)]

/-- R154: a call logs the tuple of whatever instruction stands at its cursor. -/
theorem step_of_bytesAt {s : State} {c : Nat} {i : Instr} (h : s.runsAt c)
    (hwf : i.wellFormed s.policy = true) (hin : c + (encode i).length ≤ s.size)
    (hbytes : s.buf.bytesAt c (encode i).length = encode i) :
    step s = .next (s.logTuple (tupleOf c i)) := by
  obtain ⟨rest, hd⟩ := decode_fetch_of_bytesAt hwf hin hbytes
  have htwo := (Laws.EncodedLength.all i).1
  exact step_of_decode_ok h (by omega) hd

/-- Two running streams at one cursor, under one policy. -/
structure SameCall (s₁ s₂ : State) (c : Nat) : Prop where
  left : s₁.runsAt c
  right : s₂.runsAt c
  policy_eq : s₁.policy = s₂.policy

section
variable {s₁ s₂ : State} {c : Nat}

theorem SameCall.logTuple (h : SameCall s₁ s₂ c) {t : DecodedInstr}
    (hstep : step s₁ = .next (s₁.logTuple t)) (hin : c + t.length ≤ s₂.size)
    (hbytes : ∀ a, c ≤ a → a < c + t.length → s₁.buf.read a = s₂.buf.read a) :
    step s₂ = .next (s₂.logTuple t) := by
  obtain ⟨c', i, hr, hi, rfl, -⟩ := step_eq_logged hstep rfl
  obtain rfl : c' = c := Option.some.inj (hr.2.symm.trans h.left.2)
  have hsame := (Buffer.bytesAt_congr hbytes).symm.trans hi.bytes
  rw [← length_encode] at hsame hin
  exact step_of_bytesAt h.right (h.policy_eq ▸ hi.wf) hin hsame

theorem SameCall.unrecognized (h : SameCall s₁ s₂ c) {p : Byte}
    (hstep : step s₁ = .next (s₁.takeError (.unrecognizedOpcode c p none))) (hc : c < s₂.size)
    (hb : s₁.buf.read c = s₂.buf.read c) :
    step s₂ = .next (s₂.takeError (.unrecognizedOpcode c p none)) := by
  obtain ⟨-, rfl, ⟨-, hk⟩ | ⟨hm, -⟩⟩ := (unrecognizedOpcodeCauses s₁ c h.left
    (lt_size_of_takeError h.left hstep) c p none).1 hstep
  · rw [hb] at hk ⊢
    exact step_unrecognized h.right hc hk
  · cases hm

theorem SameCall.rejected (h : SameCall s₁ s₂ c) {p m : Byte}
    (hstep : step s₁ = .next (s₁.takeError (.unrecognizedOpcode c p (some m))))
    (hc : c + 1 < s₂.size) (hb : s₁.buf.read c = s₂.buf.read c)
    (hm : s₁.buf.read (c + 1) = s₂.buf.read (c + 1)) :
    step s₂ = .next (s₂.takeError (.unrecognizedOpcode c p (some m))) := by
  obtain ⟨-, rfl, ⟨hnone, -⟩ | ⟨hsome, hw, -, hreg, hpol⟩⟩ := (unrecognizedOpcodeCauses s₁ c h.left
    (lt_size_of_takeError h.left hstep) c p (some m)).1 hstep
  · cases hnone
  · rw [hb] at hw ⊢
    rw [hm] at hreg hsome
    rw [hsome]
    exact step_rejected h.right ⟨hw, hc, hreg, h.policy_eq ▸ hpol⟩

theorem SameCall.truncated (h : SameCall s₁ s₂ c) {shape : Shape} {n : Nat}
    (hstep : step s₁ = .next (s₁.takeError (.truncatedInstruction shape n)))
    (hsize : s₁.size = s₂.size)
    (hbytes : ∀ a, c ≤ a → a < s₁.size → s₁.buf.read a = s₂.buf.read a) :
    step s₂ = .next (s₂.takeError (.truncatedInstruction shape n)) := by
  have hc := lt_size_of_takeError h.left hstep
  obtain ⟨t, hs, -⟩ | ⟨e, hs, hs₂⟩ | ⟨hs, -⟩ | ⟨hs, -⟩ :=
    decodingIsContextFree s₁ s₂ c h.left h.right hsize h.policy_eq
      fun a ha hmin => hbytes a ha (by omega)
  · simp [hstep] at hs
  · obtain rfl : .truncatedInstruction shape n = e := by simpa [hstep] using hs
    exact hs₂
  · simp [hs] at hstep
  · simp [hs] at hstep

end

/-- Settles O49: one lemma for each end of a call. -/
theorem callReadsOnlyItsBytes : Obligations.CallReadsOnlyItsBytes := by
  intro s₁ s₂ c h₁ h₂ hpol
  have h : SameCall s₁ s₂ c := ⟨h₁, h₂, hpol⟩
  exact ⟨fun _ => h.logTuple, fun _ => h.unrecognized, fun _ _ => h.rejected,
    fun _ _ => h.truncated⟩

/-! ## The log gives back the bytes -/

/-- What holds at every moment of the stream the host starts over `bytes`: `StreamOver`, the host's
buffer and policy, and that the log encodes to the bytes it has consumed (R160). -/
structure RoundTrips (bytes : List Byte) (start : Nat) (policy : C6RegPolicy) (s : State) :
    Prop where
  stream : StreamOver bytes.length start s
  buf_eq : s.buf = Buffer.ofBytesAt 0 bytes
  policy_eq : s.policy = policy
  encodes : s.log.flatMap encodeTuple = s.buf.bytesAt s.start s.consumed

section
variable {bytes : List Byte} {start : Nat} {policy : C6RegPolicy}

theorem boot_roundTrips (h : start ≤ bytes.length) :
    RoundTrips bytes start policy (State.boot bytes start policy) :=
  ⟨boot_streamOver bytes policy h, rfl, rfl, rfl⟩

/-- A logged tuple encodes to the bytes right after those of the log. -/
theorem StreamInv.encodes_logTuple {s : State} {c : Nat} {i : Instr} (hi : StreamInv s)
    (h : s.runsAt c) (hat : s.HoldsAt c i)
    (henc : s.log.flatMap encodeTuple = s.buf.bytesAt s.start s.consumed) :
    (s.log ++ [tupleOf c i]).flatMap encodeTuple =
      s.buf.bytesAt s.start (s.consumed + (tupleOf c i).length) := by
  have hc : c = s.start + s.consumed := hi.cursor_eq h
  rw [List.flatMap_append, henc, List.flatMap_singleton, hat.encodeTuple_eq,
    Buffer.bytesAt_add, ← hc]

theorem step_keeps_roundTrips {s s' : State} (hs : RoundTrips bytes start policy s)
    (h : step s = .next s') : RoundTrips bytes start policy s' := by
  obtain ⟨hstream, hbuf, hpol, henc⟩ := hs
  have hstream' := step_keeps_streamOver hstream h
  have hends := step_callEnds h
  cases hends with
  | finish => exact ⟨hstream', hbuf, hpol, henc⟩
  | takeError e => exact ⟨hstream', hbuf, hpol, henc⟩
  | logTuple t =>
    obtain ⟨c, i, hr, hat, rfl, -⟩ := step_eq_logged h rfl
    refine ⟨hstream', hbuf, hpol, ?_⟩
    rw [consumed_logTuple]
    exact hstream.inv.encodes_logTuple hr hat henc

/-- R159: a finished stream has consumed everything. -/
theorem StreamInv.failingOffset_of_finished {s : State} (hi : StreamInv s)
    (h : s.status = .finished) : s.failingOffset = s.size := by
  have := hi.agrees
  simp only [statusAgrees, h, Bool.and_eq_true, beq_iff_eq] at this
  exact this.2

/-- Settles O9: `RoundTrips` holds at every moment, and at the end the invariant says where the log
ends. -/
theorem wholeStreamRoundTrips : Obligations.WholeStreamRoundTrips := by
  intro bytes start policy k s hstart hrun
  obtain ⟨⟨hinv, hsize, rfl, -⟩, hbuf, rfl, henc⟩ :=
    run_keeps (RoundTrips bytes start policy) (fun _ _ => step_keeps_roundTrips)
      (boot_roundTrips hstart) hrun
  have hin : s.start + s.consumed ≤ bytes.length := hsize ▸ hinv.inside
  have htake : s.log.flatMap encodeTuple = (bytes.drop s.start).take s.consumed := by
    rw [henc, hbuf]
    simpa using Buffer.bytesAt_ofBytesAt 0 bytes s.start hin
  refine ⟨hinv.tiled, htake, fun hf => ?_, fun e he => ?_⟩
  · have hall : s.start + s.consumed = bytes.length :=
      (hinv.failingOffset_of_finished hf).trans hsize
    refine ⟨hall, htake.trans (List.take_of_length_le ?_)⟩
    rw [List.length_drop]
    omega
  · rw [State.boot_buf, ← hbuf, ← hsize]
    exact hinv.decodeOne_eq_err he

end

/-- Settles O46: the log's sum grows by the length of the logged tuple; where it stands at the end is
the invariant's. -/
theorem amountOfInputConsumed : Obligations.AmountOfInputConsumed := by
  refine ⟨fun s s' t _ hlog => ?_, fun s hi hf => ?_, fun s e hi he => ⟨rfl, ?_⟩⟩
  · simp [State.consumed, hlog]
  · have := hi.failingOffset_of_finished hf
    rw [State.failingOffset] at this
    omega
  · exact hi.decodeOne_eq_err he

end Sys2Proof.Machine

/-! # Proofs: errors taken, ended streams, their start and the tables -/

namespace Sys2Proof.Machine

/-! ## Taking an error (60_exceptions.md R173, R175, R177) -/

/-- Whatever takes an error, a step or an instruction, does nothing else, and the error is one of the
two kinds that are raised. -/
theorem eq_takeError_of_failed {s s' : State} {e : ErrorRecord}
    (h : step s = .next s' ∨ ∃ i, exec i s = .next s') (hf : s'.status = .failed e) :
    s' = s.takeError e ∧ ((∃ c p m, e = .unrecognizedOpcode c p m) ∨
      ∃ shape n, e = .truncatedInstruction shape n) := by
  rcases h with h | ⟨i, h⟩
  · obtain ⟨c, hr, ⟨-, rfl⟩ | ⟨hc, -⟩⟩ := beginCall_eq_next h
    · simp at hf
    · obtain ⟨-, hs⟩ | ⟨-, hs⟩ | ⟨-, hs⟩ | ⟨i, -, hs⟩ := step_ends hr hc <;>
        rw [hs] at h <;> cases h
      · cases hf; exact ⟨rfl, .inl ⟨_, _, _, rfl⟩⟩
      · cases hf; exact ⟨rfl, .inl ⟨_, _, _, rfl⟩⟩
      · cases hf; exact ⟨rfl, .inr ⟨_, _, rfl⟩⟩
      · simp [hr.1] at hf
  · obtain ⟨c, hr, ⟨-, rfl⟩ | ⟨p, m, -, rfl⟩ | ⟨shape, -, rfl⟩ | ⟨-, rfl⟩⟩ := exec_eq_next h
    · simp at hf
    · cases hf; exact ⟨rfl, .inl ⟨_, _, _, rfl⟩⟩
    · cases hf; exact ⟨rfl, .inr ⟨_, _, rfl⟩⟩
    · simp [hr.1] at hf

/-- Settles O36: the state is `takeError`, which keeps the log. -/
theorem errorLeavesLogAndNoCursor : Obligations.ErrorLeavesLogAndNoCursor := by
  intro s s' e h hf
  obtain ⟨rfl, -⟩ := eq_takeError_of_failed h hf
  exact ⟨rfl, rfl⟩

/-- Settles O39: the errors taken are of the other two kinds. -/
theorem unsupportedAddressingModeNeverRaised :
    Obligations.UnsupportedAddressingModeNeverRaised := by
  intro s s' offset shape h hf
  obtain ⟨-, ⟨c, p, m, he⟩ | ⟨shape', n, he⟩⟩ := eq_takeError_of_failed h hf
  · cases he
  · cases he

theorem step_failed_ne_next {s s' : State} {e : ErrorRecord} (h : s.status = .failed e) :
    step s ≠ .next s' := fun hstep => by
  simpa [h] using status_of_step_eq_next hstep

/-- A run from a failed state is the run of no step. -/
theorem run_of_failed {s t : State} {e : ErrorRecord} {k : Nat} (h : s.status = .failed e)
    (hrun : Host.Core.run Sys2Proof.core k s = .next t) : k = 0 ∧ t = s := by
  cases k with
  | zero => rw [run_zero] at hrun; cases hrun; exact ⟨rfl, rfl⟩
  | succ k =>
    obtain ⟨s', hstep, -⟩ := run_succ_eq_next hrun
    exact absurd hstep (step_failed_ne_next h)

/-- A run that has failed after `k` steps meets no other state after more steps. -/
theorem run_failed_unique_of_le {s s₁ s₂ : State} {e : ErrorRecord} {k j : Nat} (hkj : k ≤ j)
    (h₁ : Host.Core.run Sys2Proof.core k s = .next s₁) (hf : s₁.status = .failed e)
    (h₂ : Host.Core.run Sys2Proof.core j s = .next s₂) : k = j ∧ s₁ = s₂ := by
  obtain ⟨d, rfl⟩ := Nat.exists_eq_add_of_le hkj
  obtain ⟨s', hk, hd⟩ := run_add_eq_next h₂
  obtain rfl : s₁ = s' := by rw [h₁] at hk; cases hk; rfl
  obtain ⟨rfl, rfl⟩ := run_of_failed hf hd
  exact ⟨rfl, rfl⟩

/-- Settles O41: the shorter of the two runs has failed, so the longer makes no step more. -/
theorem firstErrorIsKept : Obligations.FirstErrorIsKept := by
  refine ⟨fun s s' e h => step_failed_ne_next h, fun s s₁ s₂ e₁ e₂ k j h₁ hf₁ h₂ hf₂ => ?_⟩
  rcases Nat.le_total k j with hkj | hjk
  · exact run_failed_unique_of_le hkj h₁ hf₁ h₂
  · obtain ⟨hk, hs⟩ := run_failed_unique_of_le hjk h₂ hf₂ h₁
    exact ⟨hk.symm, hs.symm⟩

/-! ## The model's stops (log entries 3 to 5) -/

/-- Settles O43: past `N` the step is refused, only there, and no stream gets there. -/
theorem refusedOnlyPastTheEnd : Obligations.RefusedOnlyPastTheEnd :=
  ⟨fun _ _ => step_past_end, fun _ _ => step_eq_refused, fun _ => StreamInv.not_refused⟩

/-- Every instruction is a call. -/
theorem exec_eq_beginCall (i : Instr) (s : State) : ∃ k, exec i s = beginCall s k := by
  cases i <;> exact ⟨_, rfl⟩

section
variable {s : State} (k : Nat → Host.Outcome State Fault Refusal)

theorem beginCall_finished (h : s.status = .finished) :
    beginCall s k = .fault .streamFinished := by
  simp only [beginCall, h]

theorem beginCall_failed {e : ErrorRecord} (h : s.status = .failed e) :
    beginCall s k = .fault .streamFailed := by
  simp only [beginCall, h]

theorem beginCall_no_cursor (h : s.status = .running) (hc : s.cursor = none) :
    beginCall s k = .fault .cursorUndefined := by
  simp only [beginCall, h, hc]

end

/-- What stops every call stops every step and every instruction. -/
theorem stops_of_beginCall {s : State} {f : Fault} (h : ∀ k, beginCall s k = .fault f) (i : Instr) :
    step s = .fault f ∧ exec i s = .fault f := by
  obtain ⟨k, hk⟩ := exec_eq_beginCall i s
  exact ⟨h _, hk.trans (h k)⟩

/-- A stream that runs has a cursor, at or below `N`, so its step gives a next state. -/
theorem StreamInv.not_cursorUndefined {s : State} (hi : StreamInv s) :
    step s ≠ .fault .cursorUndefined := by
  intro hstep
  cases hs : s.status with
  | running =>
    obtain ⟨s', hnext⟩ := step_progress (hi.runsAt hs) hi.inside
    rw [hnext] at hstep
    cases hstep
  | finished => cases hstep.symm.trans (beginCall_finished _ hs)
  | failed e => cases hstep.symm.trans (beginCall_failed _ hs)

/-- Settles O44: step and instruction start with `beginCall`, which stops on the status and on a
missing cursor. -/
theorem endedStreamsStop : Obligations.EndedStreamsStop :=
  ⟨fun _ i h => stops_of_beginCall (fun k => beginCall_finished k h) i,
    fun _ i _ h => stops_of_beginCall (fun k => beginCall_failed k h) i,
    fun _ i h hc => stops_of_beginCall (fun k => beginCall_no_cursor k h hc) i,
    fun _ => StreamInv.not_cursorUndefined⟩

/-! ## The start of a stream, and the width of its cursor -/

/-- Settles O1: the fields of `State.boot` and of `State.reset`. -/
theorem resetStartsStreamAtStart : Obligations.ResetStartsStreamAtStart :=
  ⟨fun _ _ _ => ⟨rfl, rfl, rfl⟩, rfl, rfl, rfl, rfl⟩

/-- Settles O2: the reset state is the host's start over no bytes. -/
theorem resetMeetsStreamInvariant : Obligations.ResetMeetsStreamInvariant :=
  boot_streamInv [] .reject (start := 0) le_rfl

/-- R22, R156: the cursor of a stream is at or below `N`. -/
theorem StreamInv.cursor_le {s : State} {c : Nat} (hi : StreamInv s) (hc : s.cursor = some c) :
    c ≤ s.size := by
  have hagrees := hi.agrees
  cases hs : s.status with
  | running => exact hi.cursor_eq ⟨hs, hc⟩ ▸ hi.inside
  | finished =>
    obtain ⟨rfl, -⟩ : c = s.size ∧ s.failingOffset = s.size := by
      simpa [statusAgrees, hs, hc] using hagrees
    exact le_rfl
  | failed e => simp [statusAgrees, hs, hc] at hagrees

/-- Settles O50: the cursor after a step is at or below `N`, which the step keeps. -/
theorem cursorFitsARealisation : Obligations.CursorFitsARealisation := by
  intro s s' c' bits hi hbits h hc
  obtain ⟨-, hsize, -⟩ := onlyTheStreamStateChanges s s' (.inl h)
  have hle := (step_keeps_streamInv hi h).cursor_le hc
  have hlt : c' < 2 ^ bits := by omega
  exact ⟨hlt, by rw [BitVec.toNat_ofNat, Nat.mod_eq_of_lt hlt]⟩

/-! ## Facts of the tables -/

/-- R80: the leading bytes of no format. -/
theorem classify_eq_unrecognized_iff (b0 : Byte) : classify b0 = .unrecognized ↔
    b0.toNat ≤ 0x87 ∨ (0x8C ≤ b0.toNat ∧ b0.toNat ≤ 0x9F) ∨
    (0xA4 ≤ b0.toNat ∧ b0.toNat ≤ 0xAF) ∨ (0xC0 ≤ b0.toNat ∧ b0.toNat ≤ 0xC5) ∨
    0xC8 ≤ b0.toNat := by
  revert b0
  decide

/-- Settles O22: the table byte by byte, and the first end of `step_ends`. -/
theorem unrecognizedByteEndsTheStream : Obligations.UnrecognizedByteEndsTheStream :=
  ⟨classify_eq_unrecognized_iff, rfl, fun _ _ => step_unrecognized⟩

/-- Settles O29: a byte has the signed view of an 8-bit displacement, and a word's is its unsigned
value, less `2^16` where the top bit is set. -/
theorem immediateKeepsBothReadings : Obligations.ImmediateKeepsBothReadings := by
  refine ⟨dispValue_disp8, fun raw => ?_, rfl, rfl⟩
  rw [immSigned, immValue, BitVec.toInt_eq_toNat_cond]
  split_ifs <;> omega

/-- Settles O35: the model runs on each word of the pairs. -/
theorem redundantEncodingsStayApart : Obligations.RedundantEncodingsStayApart := by
  refine ⟨?_, ?_⟩
  · simp only [List.forall_mem_cons]
    exact ⟨⟨_, _, rfl, rfl, by decide, rfl, rfl⟩, ⟨_, _, rfl, rfl, by decide, rfl, rfl⟩,
      ⟨_, _, rfl, rfl, by decide, rfl, rfl⟩, ⟨_, _, rfl, rfl, by decide, rfl, rfl⟩,
      ⟨_, _, rfl, rfl, by decide, rfl, rfl⟩, List.forall_mem_nil _⟩
  · simp only [List.forall_mem_cons]
    exact ⟨⟨_, _, rfl, rfl, rfl, rfl⟩, ⟨_, _, rfl, rfl, rfl, rfl⟩, ⟨_, _, rfl, rfl, rfl, rfl⟩,
      List.forall_mem_nil _⟩

/-- Settles O45: one kind of record for each code. -/
theorem errorKindsHaveCodes : Obligations.ErrorKindsHaveCodes := by
  intro e
  cases e <;> simp [errorCode]

end Sys2Proof.Machine
